-- ==== Sys2Proof/Word.lean ====
section
/-! DEFINITION. The word types of the engine (00_scope.md R8, R9, R10): bit vectors for what the spec
treats as bits. Bit 0 is the least significant bit. -/

namespace Sys2Proof

/-- `u8`, one byte of memory (R9, R50). -/
abbrev Byte := BitVec 8

/-- `u16` (R9): thresholds, clamp outputs, device range, 16-bit samples. -/
abbrev Half := BitVec 16

/-- `u32` (R9): counts, the index, 32-bit samples, `BPP` as a pattern. -/
abbrev Word := BitVec 32

/-- `Addr` is `u32` (R9, R50): a byte address, whose arithmetic wraps modulo 2^32 (R53). -/
abbrev Addr := BitVec 32

/-- A 64-bit pattern, read as binary64 where the spec says so (R84, R113). -/
abbrev DWord := BitVec 64

/-- A raw `DESC384` command descriptor: bit `32k + j` is bit `j` of word `Wk` (R80). -/
abbrev RawDesc := BitVec 384

end Sys2Proof
end

