-- ==== Sys2Proof/Config.lean ====
section
/-! DEFINITION. The values the spec leaves open, each a constant with no body: nothing can be proved of
the value of one, so a statement about it holds for every value. A step applies it to the counter
`State.fresh`, which it then advances. -/

namespace Sys2Proof.Config

/-- A free byte. Used for a byte whose content R64 leaves unspecified (logs 10 and 11). -/
opaque freeByte : Nat → BitVec 8

/-- What a host read of `IDX` or `FADDR` returns while `BUSY` (R39: "an unspecified value"; log 12). -/
opaque freeRead : Nat → BitVec 32

/-- A free choice per byte: bit `k` decides for byte `k`. Used where R64 and R221 admit two values of a
byte and fix neither (logs 11 and 13). -/
opaque freeChoice : Nat → BitVec 8

/-- How many samples ahead a racing host read sees the engine's writes, modulo the bound of its use (R64;
log 11). -/
opaque freeAhead : Nat → Nat

/-- What `DESC` holds after the host's reset (R220: "`DESC` becomes unspecified"; log 7). -/
opaque freeDescriptor : Nat → BitVec 384

end Sys2Proof.Config
end

