-- ==== Sys2Proof/Syntax.lean ====
section
/-! DEFINITION. The commands (10_state.md R22, 30_encoding.md R80 to R83) and their assembler forms
(30_encoding.md R88). A command is an instruction of this engine: one descriptor is one call of one
entry point (R80). -/

namespace Sys2Proof

/-- The operand fields of `DESC384`, every one a field of the latched descriptor (R22, R81). A field an
operation ignores (R83) is carried too: it is latched, and has no effect. -/
structure Operands where
  /-- `SIZE`, W1: number of samples. -/
  size : Word
  /-- `SRC`, W2: base byte address of the source buffer. -/
  src : Addr
  /-- `DST`, W3: base byte address of the destination buffer. -/
  dst : Addr
  /-- `OFFSET`, W5 and W4: a binary64 pattern. -/
  offset : DWord
  /-- `SCALE`, W7 and W6: a binary64 pattern. -/
  scale : DWord
  /-- `BLACK`, W8[15:0]: `stretchRangeBlack`. -/
  black : Half
  /-- `WHITE`, W8[31:16]: `stretchRangeWhite`. -/
  white : Half
  /-- `TMIN`, W9[15:0]: `targetTypeMinValue`. -/
  tmin : Half
  /-- `TMAX`, W9[31:16]: `targetTypeMaxValue`. -/
  tmax : Half
  /-- `DRANGE`, W10[15:0]: `deviceRange`. -/
  drange : Half
  /-- `BPP`, W11: `bitsPerPixel`, two's complement. -/
  bpp : Word
  deriving DecidableEq, Repr

/-- The descriptor latch `DESC` (R22): the operation code and the operands. -/
structure Descriptor where
  /-- `OPC`, W0[1:0]. -/
  opc : BitVec 2
  /-- The other eleven fields. -/
  ops : Operands
  deriving DecidableEq, Repr

/-- The three operations, one constructor per row of the opcode map (R82). -/
inductive Instr where
  /-- `PVS8`, `ScaleBytePixelData` (R150). -/
  | pvs8 (d : Operands)
  /-- `PVS16`, `ScaleShortIntPixelDataToUShort` (R160). -/
  | pvs16 (d : Operands)
  /-- `PVS32`, `ScaleIntPixelDataToUShort` (R170). -/
  | pvs32 (d : Operands)
  deriving DecidableEq, Repr

/-- The operands of a command. -/
def Instr.ops : Instr → Operands
  | .pvs8 d => d
  | .pvs16 d => d
  | .pvs32 d => d

/-- A real operand of the assembler (R88): a decimal real literal, or a `0x` 64-bit pattern. The decimal
literal with the digits of `digits` and `frac` places after the point, times `10^exp10`, has the value
`± digits * 10^(exp10 - frac)`. -/
inductive RealLit where
  | pattern (bits : Nat)
  | decimal (neg : Bool) (digits : Nat) (frac : Nat) (exp10 : Int)
  deriving DecidableEq, Repr

/-- The assembler forms, with the operand order of R88. Integer operands are the integers written; they
are checked against their fields, never truncated (R88). -/
inductive Asm where
  | pvs8 (buf size : Int) (offset scale : RealLit) (black white min max drange : Int)
  | pvs16 (src dst size : Int) (offset scale : RealLit) (black white tmin tmax drange : Int)
  | pvs32 (src dst size : Int) (black white tmin tmax drange bpp : Int)
  deriving DecidableEq, Repr

end Sys2Proof
end

