-- ==== Sys2Proof/WellFormed.lean ====
section
/-! DEFINITION. What makes a descriptor legal (30_encoding.md R85, R86) and an assembler form acceptable
(R88). Every `Instr` is well formed as it stands: its fields have the widths of R22, and no operand value
makes a descriptor illegal (R86). -/

namespace Sys2Proof

/-- Why a descriptor is illegal (R86), one name per clause of the rule. -/
inductive IllegalReason where
  /-- `OPC = 00`: no operation has this code. -/
  | opcodeZero
  /-- `W0[31:2] != 0`. -/
  | reservedW0
  /-- `W10[31:16] != 0`. -/
  | reservedW10
  deriving DecidableEq, Repr

/-- R86, as a predicate of the three fields it looks at: the descriptor is legal iff `OPC` is not 00 and
both reserved fields (R85: `W0[31:2]` and `W10[31:16]`) are 0. No operand value takes part. -/
abbrev legalDescriptor (raw : RawDesc) : Prop :=
  raw.extractLsb' 0 2 ≠ 0 ∧ raw.extractLsb' 2 30 = 0 ∧ raw.extractLsb' 336 16 = 0

/-- A latched descriptor names an operation: `OPC != 00` (R37: "`D.OPC = 0` cannot occur"). -/
abbrev Descriptor.wellFormed (d : Descriptor) : Prop := d.opc ≠ 0

/-- An integer operand fits an unsigned field of `n` bits. -/
abbrev fitsU (n : Nat) (x : Int) : Bool := decide (0 ≤ x ∧ x < 2 ^ n)

/-- An integer operand fits a two's-complement field of `n` bits. -/
abbrev fitsS (n : Nat) (x : Int) : Bool := decide (-(2 ^ (n - 1)) ≤ x ∧ x < 2 ^ (n - 1))

/-- A real operand fits: a pattern has at most 64 bits; a decimal literal always does (it is rounded). -/
def RealLit.fits : RealLit → Bool
  | .pattern bits => decide (bits < 2 ^ 64)
  | .decimal _ _ _ _ => true

/-- R88: "An integer operand that does not fit its field is an assembly error". -/
def Asm.wellFormed : Asm → Bool
  | .pvs8 buf size offset scale black white min max drange =>
      fitsU 32 buf && fitsU 32 size && offset.fits && scale.fits && fitsU 16 black && fitsU 16 white
        && fitsU 16 min && fitsU 16 max && fitsU 16 drange
  | .pvs16 src dst size offset scale black white tmin tmax drange =>
      fitsU 32 src && fitsU 32 dst && fitsU 32 size && offset.fits && scale.fits && fitsU 16 black
        && fitsU 16 white && fitsU 16 tmin && fitsU 16 tmax && fitsU 16 drange
  | .pvs32 src dst size black white tmin tmax drange bpp =>
      fitsU 32 src && fitsU 32 dst && fitsU 32 size && fitsU 16 black && fitsU 16 white && fitsU 16 tmin
        && fitsU 16 tmax && fitsU 16 drange && fitsS 32 bpp

end Sys2Proof
end

