-- ==== Sys2Proof/Decode.lean ====
section
/-! DEFINITION. The decoder of `DESC384` and its encoder, both written from the field table of
30_encoding.md R81, the opcode map of R82 and the legality rule R86. -/

namespace Sys2Proof

/-- Bits `lo + n - 1 : lo` of word `Wk` of a descriptor (R80: `desc[32k+31 : 32k] = Wk`). -/
def rawField (raw : RawDesc) (k lo n : Nat) : BitVec n := raw.extractLsb' (32 * k + lo) n

/-- The operand fields as R81 lays them out; `OFFSET = {W5, W4}`, `SCALE = {W7, W6}` (R84). -/
def rawOperands (raw : RawDesc) : Operands where
  size := rawField raw 1 0 32
  src := rawField raw 2 0 32
  dst := rawField raw 3 0 32
  offset := rawField raw 5 0 32 ++ rawField raw 4 0 32
  scale := rawField raw 7 0 32 ++ rawField raw 6 0 32
  black := rawField raw 8 0 16
  white := rawField raw 8 16 16
  tmin := rawField raw 9 0 16
  tmax := rawField raw 9 16 16
  drange := rawField raw 10 0 16
  bpp := rawField raw 11 0 32

/-- The twelve named fields of a raw descriptor (R22, R81). -/
def rawDescriptor (raw : RawDesc) : Descriptor := ⟨rawField raw 0 0 2, rawOperands raw⟩

/-- The operation a latched descriptor selects, by `OPC` alone (R37, R82). -/
def descriptorInstr (d : Descriptor) : Option Instr :=
  if d.opc = 1 then some (.pvs8 d.ops)
  else if d.opc = 2 then some (.pvs16 d.ops)
  else if d.opc = 3 then some (.pvs32 d.ops)
  else none

/-- The operation code of a command (R82). -/
def instrOpc : Instr → BitVec 2
  | .pvs8 _ => 1
  | .pvs16 _ => 2
  | .pvs32 _ => 3

/-- The descriptor latched when a command is accepted (R36: `DESC <- desc`). -/
def instrDescriptor (i : Instr) : Descriptor := ⟨instrOpc i, i.ops⟩

/-- Decoding, total on the 384-bit patterns. An illegal descriptor is rejected by the clause of R86 that
it meets first; any other is the operation its `OPC` selects (R82), with every operand value (R86). -/
def decode (raw : RawDesc) : Except IllegalReason Instr :=
  if rawField raw 0 2 30 ≠ 0 then .error .reservedW0
  else if rawField raw 10 16 16 ≠ 0 then .error .reservedW10
  else match descriptorInstr (rawDescriptor raw) with
    | some i => .ok i
    | none => .error .opcodeZero

/-- The twelve words `W0 .. W11` of a descriptor, in order, reserved bits 0 (R81, R85). -/
def encodeWords (i : Instr) : List Word :=
  let d := i.ops
  [ (0 : BitVec 30) ++ instrOpc i,
    d.size,
    d.src,
    d.dst,
    d.offset.extractLsb' 0 32,
    d.offset.extractLsb' 32 32,
    d.scale.extractLsb' 0 32,
    d.scale.extractLsb' 32 32,
    d.white ++ d.black,
    d.tmax ++ d.tmin,
    (0 : BitVec 16) ++ d.drange,
    d.bpp ]

/-- The descriptor whose words are the given ones, the first being `W0` (R80); missing words are 0. -/
def rawOfWords : List Word → RawDesc
  | [] => 0
  | w :: ws => (rawOfWords ws <<< 32) ||| w.setWidth 384

/-- The descriptor of a command: fields as in R81, reserved bits 0 (R85). -/
def encode (i : Instr) : RawDesc := rawOfWords (encodeWords i)

/-- The instruction read from a descriptor whose low `nbits` bits are those of `w` and whose other bits
are 0. There is no form longer than 384 bits (R80), so a longer pattern is no instruction. -/
def decodeTableWord (nbits w : Nat) : Option Instr :=
  if w % 2 ^ nbits < 2 ^ 384 then (decode (BitVec.ofNat 384 (w % 2 ^ nbits))).toOption else none

end Sys2Proof
end

