-- ==== Sys2Proof/Machine/State.lean ====
section
/-! DEFINITION. The state of the engine: every row of 10_state.md R21, and the model's own fields for the
host's coming moves, the platform's `Mapped` parameter and the free values. Plain data throughout. -/

namespace Sys2Proof.Machine

/-- Why a step has no next state: a fault of the MODEL. The two faults of the spec (R191) are no
constructors here: they are recorded in `CAUSE` and are next states (R197). -/
inductive Fault where
  /-- Raised by the engine's step in a state with `ST = BUSY` in which neither `Sample` (R37) nor
  `Complete` (R38) is enabled: `OPC = 00` or `IDX > SIZE`. R37 and R24 say that neither occurs, and no run
  reaches one. SAFE: the model stops where the spec gives no step (log 18). -/
  | noEnabledStep
  deriving DecidableEq, Repr

/-- What the model gives no meaning to. -/
inductive Refusal where
  /-- An instruction of the opcode table that `exec` rejects by name. SAFE. -/
  | notModelled (mnemonic : String)
  /-- Raised by a memory access of the engine or the host to a mapped byte of device memory. R51: what the
  engine does there "is not defined by this spec; a model refuses such a platform". SAFE (log 5). -/
  | deviceMemory
  /-- Raised by a host read or write of a byte the platform's memory does not admit: the spec gives the
  engine's access to it (R54, R55) and says nothing of the host's. SAFE (log 14). -/
  | hostAccessUnmapped
  deriving DecidableEq, Repr

/-- `ST` (R25). The fourth value of the two bits never occurs (R21). -/
inductive EngineState where
  | idle
  | busy
  | halted
  deriving DecidableEq, Repr

/-- `CAUSE` (R26, R191). The fourth value of the two bits never occurs (R21). -/
inductive Cause where
  | none
  | illegalDescriptor
  | accessFault
  deriving DecidableEq, Repr

/-- `MEM` (R50): the bytes that differ from what an unlisted address reads as, by rising address. -/
abbrev Memory := List Host.Cell

/-- What kind of memory the platform has at an address (R51). -/
inductive RegionKind where
  /-- Returns what was last written, reads and writes have no side effect. -/
  | ordinary
  /-- Not of that kind: a device register. -/
  | device
  deriving DecidableEq, Repr

/-- One range of mapped addresses, `first` and `last` included. -/
structure Region where
  first : Addr
  last : Addr
  kind : RegionKind
  deriving DecidableEq, Repr

/-- The host-readable status registers (R27). -/
inductive StatusReg where
  | status
  | idx
  | faddr
  deriving DecidableEq, Repr

/-- One move of the host (R33, R34, R39, R63, R64, R220). -/
inductive HostMove where
  /-- Present a descriptor at the command port (R34). -/
  | issue (raw : RawDesc)
  /-- Assert reset (R220). -/
  | reset
  /-- Write a byte of memory. -/
  | poke (a : Addr) (v : Byte)
  /-- Read a byte of memory. -/
  | peek (a : Addr)
  /-- Read a status register (R27, R39). -/
  | readReg (r : StatusReg)
  /-- Nothing: the engine takes a step if it has one. -/
  | wait
  deriving DecidableEq, Repr

/-- The state. The first seven fields are the whole of R21's table; the others are the model's own. -/
structure State where
  /-- `MEM` (R50). -/
  mem : Memory
  /-- `DESC` (R22), written by acceptance and reset only (R23, R36, R220). -/
  desc : Descriptor
  /-- `IDX` (R24): the index of the next sample. -/
  idx : Word
  /-- `ST` (R25). -/
  st : EngineState
  /-- `DONE` (R26): the last accepted command ran to completion. -/
  done : Bool
  /-- `CAUSE` (R26). -/
  cause : Cause
  /-- `FADDR` (R26): the byte address of the access that faulted. -/
  faddr : Addr
  /-- The platform's `Mapped` (R51) as a list of ranges; a parameter, which no step writes (log 4). -/
  map : List Region
  /-- The host's coming moves, next first (log 2). -/
  inbox : List HostMove
  /-- What the host's last read returned, zero-extended (log 8). -/
  bus : Word
  /-- `MEM` at the last acceptance, which R64 lets a host read return while `BUSY` (log 11). -/
  atAccept : Memory
  /-- The bytes of the command in execution that the host has written since its acceptance (R64; log 10). -/
  hostWrote : List Addr
  /-- The index of the next free value of `Config`. -/
  fresh : Nat
  deriving DecidableEq, Repr

/-- The operands in `DESC` at power-on: all 0 (R40 leaves them unspecified; DESIGN CHOICE, log 7). -/
def zeroOperands : Operands := ⟨0, 0, 0, 0, 0, 0, 0, 0, 0, 0, 0⟩

/-- After reset (R40): `IDLE`, nothing done, no fault, `FADDR` and `IDX` 0. `DESC` and the memory's
contents are the values log 7 and log 6 name; the platform maps the whole space (log 4). -/
def State.reset : State where
  mem := []
  desc := ⟨0, zeroOperands⟩
  idx := 0
  st := .idle
  done := false
  cause := .none
  faddr := 0
  map := [⟨0, 0xFFFFFFFF, .ordinary⟩]
  inbox := []
  bus := 0
  atAccept := []
  hostWrote := []
  fresh := 0

end Sys2Proof.Machine
end

