-- ==== Sys2Proof/Machine/Float.lean ====
section
/-! DEFINITION. The floating-point helpers of 00_scope.md R11 and their laws, 40_lsoc_unit.md R113 to R119.
Every finite binary64 value is a whole multiple of 2^(-1074), the smallest subnormal (R113), so a finite
value is held exactly, as that multiple; each operation computes the exact result as a fraction of two
whole numbers and rounds it once (R114). -/

namespace Sys2Proof.Machine

/-- A binary64 value (R113). `fin neg mag` is `(-1)^neg * mag * 2^(-1074)`; both zeros are there. One NaN
stands for all: "which NaN does not matter" (R114; log 16). -/
inductive F64 where
  | nan
  | inf (neg : Bool)
  | fin (neg : Bool) (mag : Nat)
  deriving DecidableEq, Repr

/-- The magnitude of 1.0: `2^1074` units of `2^(-1074)`. -/
def f64One : Nat := 2 ^ 1074

/-- The first magnitude that is no binary64 value for its size: `2^1024`, in units of `2^(-1074)`. -/
def f64Limit : Nat := 2 ^ 2098

/-- The integer with sign `neg` and magnitude `m`. -/
def signed (neg : Bool) (m : Nat) : Int := if neg then -(m : Int) else m

/-- `num / den` rounded to the nearest whole number, ties to the even one. -/
def roundHalfEven (num den : Nat) : Nat :=
  let q := num / den
  let r := num % den
  if 2 * r < den then q
  else if den < 2 * r then q + 1
  else q + q % 2

/-- The spacing of the binary64 values about `num / den`, as a power of two, in units of `2^(-1074)`: a
value has 53 significant bits, and never less than one unit (R113). -/
def spacingExp (num den : Nat) : Nat := Nat.log 2 (num / den) - 52

/-- `num / den` units rounded to the nearest binary64 magnitude, ties to the even fraction, before
overflow is looked at (R114). -/
def roundMag (num den : Nat) : Nat :=
  let e := spacingExp num den
  roundHalfEven num (den * 2 ^ e) * 2 ^ e

/-- The binary64 value nearest to `± num / den` units; overflow gives an infinity (R114). -/
def roundF64 (neg : Bool) (num den : Nat) : F64 :=
  let m := roundMag num den
  if f64Limit ≤ m then .inf neg else .fin neg m

/-- The value a 64-bit pattern denotes (R113): sign bit 63, biased exponent 62:52, fraction 51:0. -/
def valF64 (p : DWord) : F64 :=
  let s := p.getLsbD 63
  let e := (p.extractLsb' 52 11).toNat
  let f := (p.extractLsb' 0 52).toNat
  if e = 2047 then (if f = 0 then .inf s else .nan)
  else if e = 0 then .fin s f
  else .fin s ((2 ^ 52 + f) * 2 ^ (e - 1))

/-- A pattern that denotes the value (R113); used by the assembler only (R88). -/
def packF64 : F64 → DWord
  | .nan => 0x7FF8000000000000
  | .inf neg => BitVec.ofBool neg ++ (0x7FF : BitVec 11) ++ (0 : BitVec 52)
  | .fin neg m =>
    let e := Nat.log 2 m - 52
    if m < 2 ^ 52 then BitVec.ofBool neg ++ (0 : BitVec 11) ++ BitVec.ofNat 52 m
    else BitVec.ofBool neg ++ BitVec.ofNat 11 (e + 1) ++ BitVec.ofNat 52 (m / 2 ^ e)

/-- The value a 32-bit pattern denotes as binary32 (R118): sign bit 31, biased exponent 30:23, fraction
22:0. Every finite binary32 value is a binary64 value (R119). -/
def valF32 (w : Word) : F64 :=
  let s := w.getLsbD 31
  let e := (w.extractLsb' 23 8).toNat
  let f := (w.extractLsb' 0 23).toNat
  if e = 255 then (if f = 0 then .inf s else .nan)
  else if e = 0 then .fin s (f * 2 ^ 925)
  else .fin s ((2 ^ 23 + f) * 2 ^ (e + 924))

/-- `toF64(n)`, exact for the integers the unit converts (R11, R115). -/
def toF64 (n : Int) : F64 := .fin (decide (n < 0)) (n.natAbs * f64One)

/-- `isFinite(x)` (R11). -/
def isFinite : F64 → Bool
  | .fin _ _ => true
  | _ => false

/-- `feq64(a, b)`: IEEE equality; -0 equals +0, a NaN equals nothing (R11). -/
def feq64 : F64 → F64 → Bool
  | .fin s a, .fin t b => decide (signed s a = signed t b)
  | .inf s, .inf t => decide (s = t)
  | _, _ => false

/-- `fadd64(a, b)` (R114). A zero sum of finite values is +0 unless both are -0. -/
def fadd64 : F64 → F64 → F64
  | .nan, _ => .nan
  | _, .nan => .nan
  | .inf s, .inf t => if s = t then .inf s else .nan
  | .inf s, .fin _ _ => .inf s
  | .fin _ _, .inf t => .inf t
  | .fin s a, .fin t b =>
    let z := signed s a + signed t b
    roundF64 (if z = 0 then s && t else decide (z < 0)) z.natAbs 1

/-- `fmul64(a, b)` (R114). -/
def fmul64 : F64 → F64 → F64
  | .nan, _ => .nan
  | _, .nan => .nan
  | .inf s, .inf t => .inf (s != t)
  | .inf s, .fin t b => if b = 0 then .nan else .inf (s != t)
  | .fin s a, .inf t => if a = 0 then .nan else .inf (s != t)
  | .fin s a, .fin t b => roundF64 (s != t) (a * b) f64One

/-- `fdiv64(a, b)` (R114). A quotient by zero is IEEE's: NaN for 0 / 0, else an infinity. -/
def fdiv64 : F64 → F64 → F64
  | .nan, _ => .nan
  | _, .nan => .nan
  | .inf _, .inf _ => .nan
  | .inf s, .fin t _ => .inf (s != t)
  | .fin s _, .inf t => .fin (s != t) 0
  | .fin s a, .fin t b =>
    if b = 0 then (if a = 0 then .nan else .inf (s != t))
    else roundF64 (s != t) (a * f64One) b

/-- `truncZ(x)`: the integer part, rounding toward zero (R116). It is asked of finite values only; the
value 0 for the others is never used (R117). -/
def truncZ : F64 → Int
  | .fin neg m => signed neg (m / f64One)
  | _ => 0

/-- `narrowF_N(x)` (R117): `truncZ(x) mod 2^N` for a finite value, 0 for NaN and the infinities. -/
def narrowF (n : Nat) (x : F64) : BitVec n :=
  if isFinite x then BitVec.ofInt n (truncZ x) else 0

/-- `narrowF32_16(w)` (R119). -/
def narrowF32 (w : Word) : Half := narrowF 16 (valF32 w)

end Sys2Proof.Machine
end

