-- ==== Sys2Proof/Machine/Lsoc.lean ====
section
/-! DEFINITION. The shared linear_scale_offset_clamp unit: the scale/offset stage (40_lsoc_unit.md R120),
the stretch stage (R122), and the front end of `PVS32` (43_pvs32.md R171). Pure functions: the unit holds
no state (R31), validates nothing and reports nothing (R128). -/

namespace Sys2Proof.Machine

/-- `INT_TO_USHORT_OVERFLOW_THRESHOLD`, 2^24 - 1 (R7, R28, R172). -/
def intToUshortOverflowThreshold : Int := 16777215

/-- `LSO_N(v, offset, scale)` (R120): the scaled value narrowed with wrap-around, or, when `offset`
equals 0 and `scale` equals 1 as numbers, the sample's own pattern. Two roundings, no fused operation. -/
def lso (n : Nat) (v : Int) (offset scale : F64) : BitVec n :=
  if !feq64 offset (toF64 0) || !feq64 scale (toF64 1) then
    narrowF n (fadd64 offset (fmul64 scale (toF64 v)))
  else BitVec.ofInt n v

/-- The remap of R122's third branch, in binary64: the division first, then the multiplication. -/
def remap (num den drange : Nat) : F64 := fmul64 (fdiv64 (toF64 num) (toF64 den)) (toF64 drange)

/-- `STRETCH_W(v, BLACK, WHITE, TMIN, TMAX, DRANGE)` (R122): the black test first, then the white one
(R123). The sample is compared as an unsigned number; the clamp outputs are narrowed to `W` bits. -/
def stretch {w : Nat} (v : BitVec w) (black white tmin tmax drange : Half) : BitVec w :=
  if v.toNat ≤ black.toNat then tmin.setWidth w
  else if white.toNat ≤ v.toNat then tmax.setWidth w
  else narrowF w (remap (v.toNat - black.toNat) (white.toNat - black.toNat) drange.toNat)

/-- The stretch stage with the operands of a command. -/
def stretchOps {w : Nat} (d : Operands) (v : BitVec w) : BitVec w :=
  stretch v d.black d.white d.tmin d.tmax d.drange

/-- `CONV32(raw, BPP, TMAX)` (R171): `BPP = -32` reads the pattern as binary32; `BPP = 32` replaces a
signed value above the threshold by `TMAX`; every other `BPP` keeps the low 16 bits (R174). -/
def conv32 (raw : Word) (bpp : Word) (tmax : Half) : Half :=
  if bpp.toInt = -32 then narrowF32 raw
  else if bpp.toInt = 32 ∧ raw.toInt > intToUshortOverflowThreshold then tmax
  else raw.setWidth 16

end Sys2Proof.Machine
end

