-- ==== Sys2Proof/Machine/Operands.lean ====
section
/-! DEFINITION. The one addressing mode (20_memory.md R53) and the byte ranges a command uses (R53, R57). -/

namespace Sys2Proof.Machine

/-- `EA(B, i, ES) = (B + i * ES) mod 2^32` (R53). -/
def effAddr (base : Addr) (i : Word) (es : Nat) : Addr := base + i * BitVec.ofNat 32 es

/-- The byte addresses `(a + k) mod 2^32` for `k = 0 .. n - 1`, in that order (R53, R54). -/
def byteAddrs (a : Addr) (n : Nat) : List Addr := (List.range n).map fun k => a + BitVec.ofNat 32 k

/-- The element size of the source buffer, in bytes (R53's table). -/
def srcElemSize : Instr → Nat
  | .pvs8 _ => 1
  | .pvs16 _ => 2
  | .pvs32 _ => 4

/-- The element size of the destination buffer, in bytes (R53's table). -/
def dstElemSize : Instr → Nat
  | .pvs8 _ => 1
  | .pvs16 _ => 2
  | .pvs32 _ => 2

/-- The base of the destination buffer: `PVS8` works in place (R53's table). -/
def dstBase : Instr → Addr
  | .pvs8 d => d.src
  | .pvs16 d => d.dst
  | .pvs32 d => d.dst

/-- Address `a` lies in the buffer of `size` elements of `es` bytes at `base`: elements lie one after the
other with no padding (R50), and addresses wrap (R53). -/
def inBuffer (base : Addr) (size : Word) (es : Nat) (a : Addr) : Bool :=
  decide ((a - base).toNat < size.toNat * es)

/-- The command reads byte `a` as part of its source. -/
def isSourceByte (i : Instr) (a : Addr) : Bool := inBuffer i.ops.src i.ops.size (srcElemSize i) a

/-- The command writes byte `a` as part of its destination. -/
def isDestByte (i : Instr) (a : Addr) : Bool := inBuffer (dstBase i) i.ops.size (dstElemSize i) a

/-- The bytes of source sample `k` of the command (R53). -/
def sourceBytes (i : Instr) (k : Word) : List Addr :=
  byteAddrs (effAddr i.ops.src k (srcElemSize i)) (srcElemSize i)

/-- The bytes of destination sample `k` of the command (R53). -/
def destBytes (i : Instr) (k : Word) : List Addr :=
  byteAddrs (effAddr (dstBase i) k (dstElemSize i)) (dstElemSize i)

/-- The index of the element of `es` bytes that holds byte `a` of the buffer at `base`. -/
def sampleIndex (base : Addr) (es : Nat) (a : Addr) : Word := BitVec.ofNat 32 ((a - base).toNat / es)

/-- The bytes of every sample of the command that byte `a` belongs to (R64: "every sample whose bytes the
host wrote"). Empty iff the command neither reads nor writes `a`. -/
def samplesAt (i : Instr) (a : Addr) : List Addr :=
  (if isSourceByte i a then sourceBytes i (sampleIndex i.ops.src (srcElemSize i) a) else [])
    ++ (if isDestByte i a then destBytes i (sampleIndex (dstBase i) (dstElemSize i) a) else [])

/-- Destination sample `k` is one of those R64 leaves unspecified, given the bytes the host wrote and the bytes
that the unspecified samples before `k` left in memory: the host wrote a byte of it or of its source sample, or
its source sample was read from one of those bytes. -/
def sampleTouched (i : Instr) (wrote tainted : List Addr) (k : Word) : Bool :=
  (sourceBytes i k).any (fun b => wrote.contains b || tainted.contains b) || (destBytes i k).any wrote.contains

/-- The bytes whose last write by the samples `0 .. n - 1`, in the order of R62, is that of an unspecified
sample: an unspecified sample adds its bytes, any other takes its own out. -/
def taintedAfter (i : Instr) (wrote : List Addr) : Nat → List Addr
  | 0 => []
  | n + 1 =>
    let tainted := taintedAfter i wrote n
    let dest := destBytes i (BitVec.ofNat 32 n)
    if sampleTouched i wrote tainted (BitVec.ofNat 32 n) then dest ++ tainted
    else tainted.filter fun b => !dest.contains b

/-- The bytes whose content R64 leaves unspecified when the command has processed `n` samples: "every sample
whose bytes the host wrote", and "every destination sample computed from them" (log 10). -/
def unspecifiedBytes (i : Instr) (wrote : List Addr) (n : Nat) : List Addr :=
  wrote.flatMap (samplesAt i) ++ taintedAfter i wrote n

end Sys2Proof.Machine
end

