-- ==== Sys2Proof/Machine/Ops.lean ====
section
/-! DEFINITION. The named operations over memory and state: byte reads and writes, `Mapped`, the engine's
accesses (20_memory.md R54, R55), fault entry (60_exceptions.md R197) and the reset that is the only way
out of it (R199, R220), and the three steps of a command (10_state.md R36 to R38), shared by the three
operations. -/

namespace Sys2Proof.Machine

/-! ### Memory -/

/-- What a byte that nothing has written reads as (R40 leaves the contents at power-on to the platform;
DESIGN CHOICE, log 6). -/
def unlistedByte : Byte := 0

/-- The byte listed at a key, or the unlisted byte. -/
def memLookup : Memory → Nat → Byte
  | [], _ => unlistedByte
  | (k, v) :: rest, a => if k = a then v else memLookup rest a

/-- `MEM[a]` (R50). -/
def readByte (m : Memory) (a : Addr) : Byte := memLookup m a.toNat

/-- Puts a byte at a key of a list with rising keys; the value an unlisted address reads as is not
listed. -/
def memInsert : Memory → Nat → Byte → Memory
  | [], a, v => if v = unlistedByte then [] else [(a, v)]
  | (k, u) :: rest, a, v =>
    if k < a then (k, u) :: memInsert rest a v
    else
      let tail := if k = a then rest else (k, u) :: rest
      if v = unlistedByte then tail else (a, v) :: tail

/-- `MEM[a] <- v` (R50). -/
def writeByte (m : Memory) (a : Addr) (v : Byte) : Memory := memInsert m a.toNat v

/-- The canonical form: keys strictly rising and below 2^32, no entry equal to what an unlisted address
reads as. -/
abbrev Memory.wf (m : Memory) : Prop :=
  m.Pairwise (fun x y => x.1 < y.1) ∧ ∀ c ∈ m, c.1 < 2 ^ 32 ∧ c.2 ≠ unlistedByte

/-- The little-endian number the `n` bytes from `a` on hold: the sum of `MEM[(a + k) mod 2^32] * 2^(8k)`
(R52, R54). -/
def readLE (m : Memory) (a : Addr) : Nat → Nat
  | 0 => 0
  | n + 1 => (readByte m a).toNat + 256 * readLE m (a + 1) n

/-- The bytes of `v` to store at `a`, byte `k` being `v[8k+7:8k]` (R52, R55). -/
def cellsLE {w : Nat} (a : Addr) (v : BitVec w) : List (Addr × Byte) :=
  (List.range (w / 8)).map fun k => (a + BitVec.ofNat 32 k, v.extractLsb' (8 * k) 8)

/-- Stores bytes one after the other. -/
def writeCells (m : Memory) (cells : List (Addr × Byte)) : Memory :=
  cells.foldl (fun m c => writeByte m c.1 c.2) m

/-! ### The platform (R51) -/

/-- The address lies in the region. -/
def regionHas (r : Region) (a : Addr) : Bool := decide (r.first.toNat ≤ a.toNat ∧ a.toNat ≤ r.last.toNat)

/-- `Mapped(a)` (R51). -/
def mapped (s : State) (a : Addr) : Bool := s.map.any fun r => regionHas r a

/-- The address lies in device memory (R51: not ordinary memory). -/
def isDevice (s : State) (a : Addr) : Bool := s.map.any fun r => decide (r.kind = .device) && regionHas r a

/-- The answer of an access of the engine: a value, or the byte address that stopped it. -/
inductive Access (α : Type) where
  /-- The access succeeds. -/
  | ok (v : α)
  /-- `raise AccessFault(a)` (R54, R55). -/
  | unmapped (a : Addr)
  /-- Every byte is mapped and this one is device memory (R51; log 5). -/
  | device (a : Addr)
  deriving DecidableEq, Repr

/-- The check of an access to the `n` bytes from `a` on: the first unmapped one in the order `k = 0, 1,
...` (R54, R55), else the first one in device memory. -/
def checkAccess (s : State) (a : Addr) (n : Nat) : Access Unit :=
  match (byteAddrs a n).find? (fun b => !mapped s b) with
  | some b => .unmapped b
  | none =>
    match (byteAddrs a n).find? (isDevice s) with
    | some b => .device b
    | none => .ok ()

/-- Goes on with the value of an access that succeeded. -/
def Access.andThen {α β : Type} (x : Access α) (f : α → Access β) : Access β :=
  match x with
  | .ok v => f v
  | .unmapped a => .unmapped a
  | .device a => .device a

/-- `MemRead(a, n)` (R54), a `u(8n)` as a number. -/
def memRead (s : State) (a : Addr) (n : Nat) : Access Nat :=
  (checkAccess s a n).andThen fun _ => .ok (readLE s.mem a n)

/-- `MemWrite(a, n, v)` (R55), as the bytes to store: all of them, or none if a byte is unmapped. -/
def memWrite {w : Nat} (s : State) (a : Addr) (v : BitVec w) : Access (List (Addr × Byte)) :=
  (checkAccess s a (w / 8)).andThen fun _ => .ok (cellsLE a v)

/-! ### Fault entry, and the way out of it -/

/-- The two faults of R191, with what each records. -/
inductive FaultInfo where
  | illegalDescriptor
  | accessFault (a : Addr)
  deriving DecidableEq, Repr

/-- `raise F(info)` (R197): the engine halts, the cause is recorded, `DONE` is cleared, and `AccessFault`
also records the address. Nothing else changes; control goes nowhere. -/
def raiseFault (f : FaultInfo) (s : State) : State :=
  match f with
  | .illegalDescriptor => { s with st := .halted, cause := .illegalDescriptor, done := false }
  | .accessFault a => { s with st := .halted, cause := .accessFault, done := false, faddr := a }

/-- Reset (R220), the only way out of `HALTED` (R199): there is no return from a fault. `DESC` becomes a
free value (log 7); memory is not touched. -/
def resetCore (s : State) : State :=
  { s with
    st := .idle, done := false, cause := .none, faddr := 0, idx := 0,
    desc := rawDescriptor (Config.freeDescriptor s.fresh), fresh := s.fresh + 1 }

/-! ### The steps of a command -/

/-- Acceptance (R36). `atAccept` and `hostWrote` start anew with the command (logs 10 and 11). -/
def accept (c : Descriptor) (s : State) : State :=
  { s with desc := c, idx := 0, done := false, st := .busy, atAccept := s.mem, hostWrote := [] }

/-- `Complete` (R38). -/
def complete (s : State) : State := { s with st := .idle, done := true }

/-- The shape of all three element rules (R37: one `MemRead` and then one `MemWrite`), answering the bytes to
store: `sn` bytes are read at `sa`, `f` of their number is stored at `da`. -/
def element {w : Nat} (s : State) (sa : Addr) (sn : Nat) (da : Addr) (f : Nat → BitVec w) :
    Access (List (Addr × Byte)) :=
  (memRead s sa sn).andThen fun raw => memWrite s da (f raw)

/-- Stores what an element rule writes. -/
def applySample (cells : List (Addr × Byte)) (s : State) : State := { s with mem := writeCells s.mem cells }

/-- The `Sample` step (R37), given what the element rule answers: the write, and `IDX <- IDX + 1` only if
no fault was raised; else fault entry, with `IDX` and memory as they were (R197, R198). -/
def sampleStep (r : Access (List (Addr × Byte))) (s : State) : Host.Outcome State Fault Refusal :=
  match r with
  | .ok cells => .next { applySample cells s with idx := s.idx + 1 }
  | .unmapped a => .next (raiseFault (.accessFault a) s)
  | .device _ => .refused .deviceMemory

/-- The one step a command takes in a state (log 1). `IDLE`: it is accepted (R36). `BUSY`, being the
command in `DESC`: its next sample (R37), or its completion (R38). `BUSY` with another command, or
`HALTED`: it is not accepted and has no effect (R34). -/
def commandStep (c : Descriptor) (elem : State → Access (List (Addr × Byte))) (s : State) :
    Host.Outcome State Fault Refusal :=
  match s.st with
  | .idle => .next (accept c s)
  | .busy =>
    if s.desc = c then
      if s.idx.toNat < c.ops.size.toNat then sampleStep (elem s) s
      else if s.idx = c.ops.size then .next (complete s)
      else .fault .noEnabledStep
    else .next s
  | .halted => .next s

end Sys2Proof.Machine
end

