-- ==== Sys2Proof/Machine/Pvs16.lean ====
section
/-! DEFINITION. The operation PVS16 (42_pvs16.md). -/

namespace Sys2Proof.Machine

/-- `f16` (R161): the pattern written for the 16-bit pattern `p` read, whose sample value is `asS_16(p)`
(R160). -/
def pvs16Sample (d : Operands) (p : Half) : Half :=
  stretchOps d (lso 16 p.toInt (valF64 d.offset) (valF64 d.scale))

/-- `PVS16_element(IDX)` (R160): two bytes read at `SRC + 2i`, two written at `DST + 2i`. -/
def pvs16Element (d : Operands) (s : State) : Access (List (Addr × Byte)) :=
  element s (effAddr d.src s.idx 2) 2 (effAddr d.dst s.idx 2) fun raw => pvs16Sample d (BitVec.ofNat 16 raw)

/-- `PVS16` (R160). -/
def execPvs16 (d : Operands) (s : State) : Host.Outcome State Fault Refusal :=
  commandStep (instrDescriptor (.pvs16 d)) (pvs16Element d) s

end Sys2Proof.Machine
end

