-- ==== Sys2Proof/Machine/Pvs32.lean ====
section
/-! DEFINITION. The operation PVS32 (43_pvs32.md). -/

namespace Sys2Proof.Machine

/-- `f32` of R177: the pattern written for the 32-bit pattern `raw` read. No scale/offset stage (R170,
R178). -/
def pvs32Sample (d : Operands) (raw : Word) : Half := stretchOps d (conv32 raw d.bpp d.tmax)

/-- `PVS32_element(IDX)` (R170): four bytes read at `SRC + 4i`, two written at `DST + 2i`. -/
def pvs32Element (d : Operands) (s : State) : Access (List (Addr × Byte)) :=
  element s (effAddr d.src s.idx 4) 4 (effAddr d.dst s.idx 2) fun raw => pvs32Sample d (BitVec.ofNat 32 raw)

/-- `PVS32` (R170). -/
def execPvs32 (d : Operands) (s : State) : Host.Outcome State Fault Refusal :=
  commandStep (instrDescriptor (.pvs32 d)) (pvs32Element d) s

end Sys2Proof.Machine
end

