-- ==== Sys2Proof/Machine/Pvs8.lean ====
section
/-! DEFINITION. The operation PVS8 (41_pvs8.md). -/

namespace Sys2Proof.Machine

/-- `f8` (R151): the byte written for the byte `v` read. -/
def pvs8Sample (d : Operands) (v : Byte) : Byte :=
  stretchOps d (lso 8 v.toNat (valF64 d.offset) (valF64 d.scale))

/-- `PVS8_element(IDX)` (R150): in place, one byte. -/
def pvs8Element (d : Operands) (s : State) : Access (List (Addr × Byte)) :=
  let ea := effAddr d.src s.idx 1
  element s ea 1 ea fun raw => pvs8Sample d (BitVec.ofNat 8 raw)

/-- `PVS8` (R150). -/
def execPvs8 (d : Operands) (s : State) : Host.Outcome State Fault Refusal :=
  commandStep (instrDescriptor (.pvs8 d)) (pvs8Element d) s

end Sys2Proof.Machine
end

