-- ==== Sys2Proof/Machine/Dispatch.lean ====
section
/-! DEFINITION. One arm per operation of the opcode map (30_encoding.md R82). -/

namespace Sys2Proof.Machine

/-- The step the command `i` takes in the state `s`: acceptance, a sample, or completion (log 1). -/
def exec (i : Instr) (s : State) : Host.Outcome State Fault Refusal :=
  match i with
  | .pvs8 d => Sys2Proof.Machine.execPvs8 d s
  | .pvs16 d => Sys2Proof.Machine.execPvs16 d s
  | .pvs32 d => Sys2Proof.Machine.execPvs32 d s

end Sys2Proof.Machine
end

