-- ==== Sys2Proof/Machine/Flags.lean ====
section
/-! DEFINITION. What the host sees of the engine's status (10_state.md R25 to R27, R33). The engine has no
arithmetic flag and no condition code (R26): no operation leaves or reads one. -/

namespace Sys2Proof.Machine

/-- The two-bit code of `ST` (R25). -/
def engineStateCode : EngineState → BitVec 2
  | .idle => 0
  | .busy => 1
  | .halted => 2

/-- The two-bit code of `CAUSE` (R26, R191). -/
def causeCode : Cause → BitVec 2
  | .none => 0
  | .illegalDescriptor => 1
  | .accessFault => 2

/-- `STATUS.BUSY`: 1 iff `ST = BUSY` (R27). -/
def busyBit (s : State) : Bool := decide (s.st = .busy)

/-- `STATUS.HALTED`: 1 iff `ST = HALTED` (R27). -/
def haltedBit (s : State) : Bool := decide (s.st = .halted)

/-- The register `STATUS` (R27): bit 0 `BUSY`, bit 1 `DONE`, bit 2 `HALTED`, bits 4:3 `CAUSE`, bits 31:5
read as 0. -/
def statusWord (s : State) : Word :=
  (0 : BitVec 27) ++ causeCode s.cause ++ BitVec.ofBool (haltedBit s) ++ BitVec.ofBool s.done
    ++ BitVec.ofBool (busyBit s)

/-- The level output `done = STATUS.DONE` (R33, R195). -/
def doneOutput (s : State) : Bool := (statusWord s).getLsbD 1

/-- The level output `fault = STATUS.HALTED` (R33, R195). -/
def faultOutput (s : State) : Bool := (statusWord s).getLsbD 2

end Sys2Proof.Machine
end

