-- ==== Sys2Proof/Machine/Turns.lean ====
section
/-! DEFINITION. Whose turn it is, and what a turn does: the engine's step (10_state.md R37, R38) and the
host's moves (R34, R35, R39, 20_memory.md R63, R64, 70_reset_and_hazards.md R220, R221). -/

namespace Sys2Proof.Machine

/-! ### Contents that R64 leaves unspecified -/

/-- Free bytes at the given addresses, the first with the index `n`. -/
def freeCells (n : Nat) : List Addr → List (Addr × Byte)
  | [] => []
  | a :: rest => (a, Config.freeByte n) :: freeCells (n + 1) rest

/-- Each of the bytes that is ordinary memory holds any value from now on, and the account of the host's writes
is closed (R64; log 10). -/
def settleBytes (bytes : List Addr) (s : State) : State :=
  let l := bytes.filter fun a => mapped s a && !isDevice s a
  { s with mem := writeCells s.mem (freeCells s.fresh l), hostWrote := [], fresh := s.fresh + l.length }

/-- Where the command of the host's writes is no longer in execution, the "final content" of R64 is due:
`IDX` samples have been processed. Without a write of the host nothing changes. -/
def settle (s : State) : State :=
  if s.st = .busy ∨ s.hostWrote = [] then s
  else match descriptorInstr s.desc with
    | some i => settleBytes (unspecifiedBytes i s.hostWrote s.idx.toNat) s
    | none => s

/-- The same after a step. -/
def settled (o : Host.Outcome State Fault Refusal) : Host.Outcome State Fault Refusal :=
  match o with
  | .next t => .next (settle t)
  | .fault f => .fault f
  | .refused r => .refused r

/-! ### The engine -/

/-- The engine's turn. `BUSY`: the command in `DESC` takes its step (R37: `case D.OPC of`), and where that ends
it, the bytes R64 leaves unspecified hold any value. `IDLE` and `HALTED`: no engine step is enabled (R25, R199, R205),
and nothing changes (log 9). -/
def engineTurn (s : State) : Host.Outcome State Fault Refusal :=
  match s.st with
  | .busy =>
    match descriptorInstr s.desc with
    | some i => settled (exec i s)
    | none => .fault .noEnabledStep
  | _ => .next s

/-- `Issue(desc)` in `IDLE` (R34): an illegal descriptor raises `IllegalDescriptor` (R35), any other is
accepted (R36). -/
def issueTurn (raw : RawDesc) (s : State) : Host.Outcome State Fault Refusal :=
  match decode raw with
  | .ok i => exec i s
  | .error _ => .next (raiseFault .illegalDescriptor s)

/-- What the element rule of a command answers. -/
def instrElement (i : Instr) (s : State) : Access (List (Addr × Byte)) :=
  match i with
  | .pvs8 d => pvs8Element d s
  | .pvs16 d => pvs16Element d s
  | .pvs32 d => pvs32Element d s

/-- The command in execution, if there is one. -/
def currentInstr (s : State) : Option Instr := if s.st = .busy then descriptorInstr s.desc else none

/-! ### Reset -/

/-- The sample write that may be in progress when reset is asserted (R221): that of sample `IDX` while
`BUSY`, none otherwise (log 13). -/
def inFlight (s : State) : Access (List (Addr × Byte)) :=
  match currentInstr s with
  | some i => if s.idx.toNat < i.ops.size.toNat then instrElement i s else .ok []
  | none => .ok []

/-- Those of the bytes whose bit of the free choice is set, the first byte with bit `k`. -/
def chosenCells (choice : BitVec 8) : Nat → List (Addr × Byte) → List (Addr × Byte)
  | _, [] => []
  | k, c :: rest =>
    if choice.getLsbD k then c :: chosenCells choice (k + 1) rest else chosenCells choice (k + 1) rest

/-- The bytes a reset leaves unspecified because the host wrote into the command it abandons (R64): as after
`IDX` samples, and, where the write of sample `IDX` may have been made, as after it. -/
def touchedAtReset (s : State) (inProgress : Bool) : List Addr :=
  match currentInstr s with
  | some i =>
    unspecifiedBytes i s.hostWrote s.idx.toNat
      ++ (if inProgress then unspecifiedBytes i s.hostWrote (s.idx.toNat + 1) else [])
  | none => []

/-- Reset asserted by the host, in any state (R220). While `BUSY`, each byte of the one sample in flight
holds its old or its new value, by a free choice (R221). -/
def hostReset (s : State) : Host.Outcome State Fault Refusal :=
  match inFlight s with
  | .ok cells =>
    .next (resetCore (settleBytes (touchedAtReset s (decide (cells ≠ [])))
      { s with mem := writeCells s.mem (chosenCells (Config.freeChoice s.fresh) 0 cells) }))
  | .unmapped _ => .next (resetCore (settleBytes (touchedAtReset s false) s))
  | .device _ => .refused .deviceMemory

/-! ### The host's accesses to memory -/

/-- The command in execution reads or writes byte `a` (R57, R64). -/
def inCommand (s : State) (a : Addr) : Bool :=
  match currentInstr s with
  | some i => isSourceByte i a || isDestByte i a
  | none => false

/-- A host write of one byte. If it is a byte of the command in execution, the samples it belongs to, and those
computed from them, are unspecified from now on (R64). -/
def hostWrite (a : Addr) (v : Byte) (s : State) : Host.Outcome State Fault Refusal :=
  if !mapped s a then .refused .hostAccessUnmapped
  else if isDevice s a then .refused .deviceMemory
  else .next { s with
    mem := writeByte s.mem a v,
    hostWrote := if inCommand s a then a :: s.hostWrote else s.hostWrote }

/-- The state after the next `n` steps of the command in execution, as far as they have a next state. -/
def runAhead (i : Instr) : Nat → State → State
  | 0, s => s
  | n + 1, s =>
    match exec i s with
    | .next t => runAhead i n t
    | _ => s

/-- How many samples ahead a host read of byte `a` sees the engine's writes: a free number of the samples left,
for a destination byte; none, for any other (log 11). -/
def samplesSeen (i : Instr) (a : Addr) (s : State) : Nat :=
  if isDestByte i a then Config.freeAhead s.fresh % (i.ops.size.toNat - s.idx.toNat + 1) else 0

/-- The byte a host read returns. While `BUSY`, a destination byte of the command is the byte at acceptance or
the one the engine writes, whether that write is made already or not, by a free choice; a byte of a sample that
R64 leaves unspecified, of those processed by then, is any value (R64, U8; log 11). -/
def hostByte (a : Addr) (s : State) : Byte :=
  match currentInstr s with
  | some i =>
    let u := runAhead i (samplesSeen i a s) s
    if (unspecifiedBytes i s.hostWrote u.idx.toNat).contains a then Config.freeByte s.fresh
    else if isDestByte i a && (Config.freeChoice s.fresh).getLsbD 0 then readByte s.atAccept a
    else readByte u.mem a
  | none => readByte s.mem a

/-- A host read of one byte. -/
def hostRead (a : Addr) (s : State) : Host.Outcome State Fault Refusal :=
  if !mapped s a then .refused .hostAccessUnmapped
  else if isDevice s a then .refused .deviceMemory
  else .next { s with bus := (hostByte a s).setWidth 32, fresh := s.fresh + 1 }

/-! ### The host's other moves, and whose turn it is -/

/-- What a read of a status register returns (R39): `STATUS` always its current value; `IDX` and `FADDR`
any value while `BUSY` (log 12). -/
def hostRegValue (r : StatusReg) (s : State) : Word :=
  match r with
  | .status => statusWord s
  | .idx => if s.st = .busy then Config.freeRead s.fresh else s.idx
  | .faddr => if s.st = .busy then Config.freeRead s.fresh else s.faddr

/-- A host read of a status register (R27, R39). -/
def hostReadReg (r : StatusReg) (s : State) : State :=
  { s with bus := hostRegValue r s, fresh := s.fresh + 1 }

/-- One move of the host, made now. A descriptor is presented in `IDLE` only (R34); `turn` sees to it. -/
def hostTurn (m : HostMove) (s : State) : Host.Outcome State Fault Refusal :=
  match m with
  | .issue raw => issueTurn raw s
  | .reset => hostReset s
  | .poke a v => hostWrite a v s
  | .peek a => hostRead a s
  | .readReg r => .next (hostReadReg r s)
  | .wait => engineTurn s

/-- The next move is a descriptor and the engine is not `IDLE`: it is not accepted, has no effect, and the
host waits (R34; log 19). -/
def hostMustWait (m : HostMove) (s : State) : Bool :=
  match m with
  | .issue _ => decide (s.st ≠ .idle)
  | _ => false

/-- One step of the machine: the host's next move, or, where it has none or must wait, the engine's
step (log 2). -/
def turn (s : State) : Host.Outcome State Fault Refusal :=
  match s.inbox with
  | [] => engineTurn s
  | m :: rest => if hostMustWait m s then engineTurn s else hostTurn m { s with inbox := rest }

end Sys2Proof.Machine
end

