-- ==== Sys2Proof/Machine/Step.lean ====
section
/-! DEFINITION. One step of the machine, and how a descriptor is placed at its command port. -/

namespace Sys2Proof.Machine

/-- One step (10_state.md R34 to R39): the host's next move, else the engine's. -/
def step (s : State) : Host.Outcome State Fault Refusal := turn s

/-- The descriptor whose low `nbits` bits are those of `w`, presented at the command port as the host's
very next move; a descriptor is taken in `IDLE` only (R34), so the engine is put there. Nothing is fetched
from memory (R67): this stands for the host's `Issue` (log 3). -/
def State.withFetchWord (s : State) (nbits w : Nat) : State :=
  { s with st := .idle, inbox := .issue (BitVec.ofNat 384 (w % 2 ^ nbits)) :: s.inbox }

end Sys2Proof.Machine
end

