-- ==== Sys2Proof/Machine/Assemble.lean ====
section
/-! DEFINITION. The assembler of 30_encoding.md R88 and R89: a command as a mnemonic (or its synonym, the
entry point's name) and comma-separated operands. No step of the machine uses it. -/

namespace Sys2Proof.Machine

/-- A real operand's binary64 pattern: a decimal literal is converted to the nearest binary64, ties to
even; a `0x` pattern is taken as it stands (R88). -/
def realPattern : RealLit → DWord
  | .pattern bits => BitVec.ofNat 64 bits
  | .decimal neg digits frac exp10 =>
    let num := digits * 10 ^ exp10.toNat * f64One
    let den := 10 ^ (frac + (-exp10).toNat)
    packF64 (roundF64 neg num den)

/-- The command of a well-formed assembler form, with operands mapped to fields as R88 says and the fields
the operation ignores 0; an operand that does not fit its field is an error (R88). -/
def assemble (a : Asm) : Option Instr :=
  if a.wellFormed then
    match a with
    | .pvs8 buf size offset scale black white min max drange =>
      some (.pvs8 {
        size := BitVec.ofInt 32 size, src := BitVec.ofInt 32 buf, dst := 0,
        offset := realPattern offset, scale := realPattern scale,
        black := BitVec.ofInt 16 black, white := BitVec.ofInt 16 white, tmin := BitVec.ofInt 16 min,
        tmax := BitVec.ofInt 16 max, drange := BitVec.ofInt 16 drange, bpp := 0 })
    | .pvs16 src dst size offset scale black white tmin tmax drange =>
      some (.pvs16 {
        size := BitVec.ofInt 32 size, src := BitVec.ofInt 32 src, dst := BitVec.ofInt 32 dst,
        offset := realPattern offset, scale := realPattern scale,
        black := BitVec.ofInt 16 black, white := BitVec.ofInt 16 white, tmin := BitVec.ofInt 16 tmin,
        tmax := BitVec.ofInt 16 tmax, drange := BitVec.ofInt 16 drange, bpp := 0 })
    | .pvs32 src dst size black white tmin tmax drange bpp =>
      some (.pvs32 {
        size := BitVec.ofInt 32 size, src := BitVec.ofInt 32 src, dst := BitVec.ofInt 32 dst,
        offset := 0, scale := 0,
        black := BitVec.ofInt 16 black, white := BitVec.ofInt 16 white, tmin := BitVec.ofInt 16 tmin,
        tmax := BitVec.ofInt 16 tmax, drange := BitVec.ofInt 16 drange, bpp := BitVec.ofInt 32 bpp })
  else none

/-! ### The text form (log 22 for the details of its grammar) -/

/-- The value of a hexadecimal digit. -/
def hexDigit (c : Char) : Option Nat :=
  if '0' ≤ c ∧ c ≤ '9' then some (c.toNat - '0'.toNat)
  else if 'a' ≤ c ∧ c ≤ 'f' then some (c.toNat - 'a'.toNat + 10)
  else if 'A' ≤ c ∧ c ≤ 'F' then some (c.toNat - 'A'.toNat + 10)
  else none

/-- The number whose digits in `base`, after those of `acc`, are the characters. -/
def digitsFrom (base : Nat) : Nat → List Char → Option Nat
  | acc, [] => some acc
  | acc, c :: rest =>
    match hexDigit c with
    | some v => if v < base then digitsFrom base (acc * base + v) rest else none
    | none => none

/-- A number of at least one digit. -/
def digits (base : Nat) (cs : List Char) : Option Nat := if cs = [] then none else digitsFrom base 0 cs

/-- An unsigned integer literal, decimal or `0x` hexadecimal (R88). -/
def natLiteral : List Char → Option Nat
  | '0' :: 'x' :: rest => digits 16 rest
  | cs => digits 10 cs

/-- The operand `bpp`: an integer literal that may carry a minus sign (R88). The sign may stand before a
hexadecimal number too: `-0x20` is -32 (R88 does not say; DESIGN CHOICE, log 22). -/
def bppLiteral : List Char → Option Int
  | '-' :: rest => (natLiteral rest).map fun n => -(n : Int)
  | cs => (natLiteral cs).map fun n => (n : Int)

/-- Every other integer operand, which carries no sign (R88). -/
def intLiteral (cs : List Char) : Option Int := (natLiteral cs).map fun n => (n : Int)

/-- The exponent of a real literal: decimal digits, perhaps after a minus sign (log 22). -/
def exponentLiteral : List Char → Option Int
  | '-' :: rest => (digits 10 rest).map fun n => -(n : Int)
  | cs => (digits 10 cs).map fun n => (n : Int)

/-- The characters before the first `c`, and those after it if it is there. -/
def splitAtChar (c : Char) : List Char → List Char × Option (List Char)
  | [] => ([], none)
  | x :: rest =>
    if x = c then ([], some rest)
    else
      let r := splitAtChar c rest
      (x :: r.1, r.2)

/-- A decimal real literal without its sign: digits, perhaps a point and digits, perhaps `e` and an
exponent. -/
def decimalLiteral (neg : Bool) (cs : List Char) : Option RealLit :=
  let mantissa := splitAtChar 'e' cs
  let parts := splitAtChar '.' mantissa.1
  let frac := parts.2.getD []
  match digits 10 parts.1, digitsFrom 10 0 frac, (mantissa.2.map exponentLiteral).getD (some 0) with
  | some whole, some part, some e => some (.decimal neg (whole * 10 ^ frac.length + part) frac.length e)
  | _, _, _ => none

/-- A real literal: a `0x` 64-bit pattern or a decimal real literal, perhaps with a minus sign (R88). -/
def realLiteral : List Char → Option RealLit
  | '0' :: 'x' :: rest => (digits 16 rest).map .pattern
  | '-' :: rest => decimalLiteral true rest
  | cs => decimalLiteral false cs

/-- The operand texts between commas, without spaces. -/
def operandTexts : List Char → List (List Char)
  | [] => [[]]
  | c :: rest =>
    match c, operandTexts rest with
    | ',', r => [] :: r
    | ' ', r => r
    | c, x :: r => (c :: x) :: r
    | c, [] => [[c]]

/-- The operands of `PVS8`, in the order of R88. -/
def parsePvs8 : List (List Char) → Option Asm
  | [buf, size, offset, scale, black, white, min, max, drange] => do
    return .pvs8 (← intLiteral buf) (← intLiteral size) (← realLiteral offset) (← realLiteral scale)
      (← intLiteral black) (← intLiteral white) (← intLiteral min) (← intLiteral max) (← intLiteral drange)
  | _ => none

/-- The operands of `PVS16`, in the order of R88. -/
def parsePvs16 : List (List Char) → Option Asm
  | [src, dst, size, offset, scale, black, white, tmin, tmax, drange] => do
    return .pvs16 (← intLiteral src) (← intLiteral dst) (← intLiteral size) (← realLiteral offset)
      (← realLiteral scale) (← intLiteral black) (← intLiteral white) (← intLiteral tmin) (← intLiteral tmax)
      (← intLiteral drange)
  | _ => none

/-- The operands of `PVS32`, in the order of R88. -/
def parsePvs32 : List (List Char) → Option Asm
  | [src, dst, size, black, white, tmin, tmax, drange, bpp] => do
    return .pvs32 (← intLiteral src) (← intLiteral dst) (← intLiteral size) (← intLiteral black)
      (← intLiteral white) (← intLiteral tmin) (← intLiteral tmax) (← intLiteral drange) (← bppLiteral bpp)
  | _ => none

/-- The operation a name stands for: its mnemonic, or the entry point's name (R88). -/
def parseCommand (name : List Char) (operands : List (List Char)) : Option Asm :=
  if name = "PVS8".toList ∨ name = "ScaleBytePixelData".toList then parsePvs8 operands
  else if name = "PVS16".toList ∨ name = "ScaleShortIntPixelDataToUShort".toList then parsePvs16 operands
  else if name = "PVS32".toList ∨ name = "ScaleIntPixelDataToUShort".toList then parsePvs32 operands
  else none

/-- One line: `NAME operands` or `NAME(operands)`, perhaps with a comment after `;`. -/
def parseLine (line : List Char) : Option Asm :=
  let text := ((splitAtChar ';' line).1).dropWhile (· = ' ')
  let name := text.takeWhile fun c => c ≠ ' ' ∧ c ≠ '('
  match (text.drop name.length).dropWhile (· = ' ') with
  | '(' :: rest =>
    match splitAtChar ')' rest with
    | (inside, some _) => parseCommand name (operandTexts inside)
    | _ => none
  | rest => parseCommand name (operandTexts rest)

/-- The command a line of assembler text stands for. -/
def assembleLine (line : List Char) : Option Instr := (parseLine line).bind assemble

/-- The texts between spaces. -/
def spacedTexts : List Char → List (List Char)
  | [] => []
  | ' ' :: rest => spacedTexts rest
  | [c] => [[c]]
  | c :: ' ' :: rest => [c] :: spacedTexts rest
  | c :: rest =>
    match spacedTexts rest with
    | [] => [[c]]
    | w :: ws => (c :: w) :: ws

/-- A byte of a `.mem` directive: a hexadecimal number below 256. -/
def byteLiteral (cs : List Char) : Option Byte :=
  match digits 16 cs with
  | some n => if n < 256 then some (BitVec.ofNat 8 n) else none
  | none => none

/-- The bytes of a `.mem` directive, or of a line that goes on with them. -/
def byteTexts (cs : List Char) : Option (List Byte) := (spacedTexts cs).mapM byteLiteral

/-- The directive `.mem addr: bytes` (R89): the address and the bytes from it on. -/
def parseMem (text : List Char) : Option (Addr × List Byte) :=
  if text.take 4 = ".mem".toList then
    match splitAtChar ':' (text.drop 4) with
    | (addr, some bytes) =>
      match natLiteral (addr.filter (· ≠ ' ')), byteTexts bytes with
      | some a, some bs => if a < 2 ^ 32 then some (BitVec.ofNat 32 a, bs) else none
      | _, _ => none
    | _ => none
  else none

/-- A word of a descriptor written out: a hexadecimal number below 2^32. -/
def wordLiteral (cs : List Char) : Option Word :=
  match digits 16 cs with
  | some n => if n < 2 ^ 32 then some (BitVec.ofNat 32 n) else none
  | none => none

/-- A descriptor written out as `(descriptor)` and its twelve words, which program P9 uses to present an
illegal one (log 22). -/
def parseDescriptor (text : List Char) : Option RawDesc :=
  if text.take 12 = "(descriptor)".toList then
    match (spacedTexts (text.drop 12)).mapM wordLiteral with
    | some ws => if ws.length = 12 then some (rawOfWords ws) else none
    | none => none
  else none

/-- Stores bytes from an address on. R89 is silent on two points: bytes that run past 0xFFFFFFFF go on at address
0, as the bytes of a sample do (R53); a byte stated twice holds what was stated last (DESIGN CHOICE, log 22). -/
def storeBytes (m : Memory) (a : Addr) : List Byte → Memory
  | [] => m
  | b :: rest => storeBytes (writeByte m a b) (a + 1) rest

/-- What the lines of a program have stated so far. -/
structure ProgramText where
  /-- The initial memory. -/
  mem : Memory
  /-- The host's moves for the commands, in order. -/
  moves : List HostMove
  /-- Where the bytes of a following line go that goes on with a `.mem` directive. -/
  cursor : Option Addr
  deriving DecidableEq, Repr

/-- Adds bytes from an address on. -/
def addBytes (p : ProgramText) (a : Addr) (bytes : List Byte) : ProgramText :=
  { p with mem := storeBytes p.mem a bytes, cursor := some (a + BitVec.ofNat 32 bytes.length) }

/-- Adds a descriptor to issue. -/
def addIssue (p : ProgramText) (raw : RawDesc) : ProgramText :=
  { p with moves := p.moves ++ [.issue raw], cursor := none }

/-- One more line of a program: nothing but spaces and a comment, a directive, a descriptor written out, a
command, or a line of bytes only. The last goes on with the `.mem` directive before it, as in program P3; only
lines without text may stand between (R89 does not say; DESIGN CHOICE, log 22). -/
def addLine (p : ProgramText) (line : List Char) : Option ProgramText :=
  let text := ((splitAtChar ';' line).1).dropWhile (· = ' ')
  if text = [] then some p
  else match parseMem text, parseDescriptor text, assembleLine text with
    | some (a, bytes), _, _ => some (addBytes p a bytes)
    | none, some raw, _ => some (addIssue p raw)
    | none, none, some i => some (addIssue p (encode i))
    | none, none, none =>
      match p.cursor, byteTexts text with
      | some a, some bytes => some (addBytes p a bytes)
      | _, _ => none

/-- A program is a list of commands, issued in order (R89): the initial memory its directives state, and the
host's moves for its commands. -/
def assembleProgram (lines : List (List Char)) : Option ProgramText :=
  lines.foldlM addLine ⟨[], [], none⟩

/-- The machine after reset with a program's initial memory, and its commands for the host to issue, each
after the previous one has completed (R34, R89). -/
def State.loaded (lines : List (List Char)) : Option State :=
  (assembleProgram lines).map fun p => { State.reset with mem := p.mem, inbox := p.moves }

end Sys2Proof.Machine
end

