-- ==== Sys2Proof/Safety.lean ====
section
/-! DEFINITION. What claims about the engine are stated in: legal states, which command is in execution,
which accesses the platform admits, and the end of a run (70_reset_and_hazards.md R227). -/

namespace Sys2Proof.Machine

/-- The invariant of the engine. It holds after reset, and every step keeps it. -/
structure State.Inv (s : State) : Prop where
  /-- The memory keeps its canonical form (R50). -/
  memWf : Memory.wf s.mem
  /-- So does the memory kept from acceptance. -/
  atAcceptWf : Memory.wf s.atAccept
  /-- R27: "`DONE = 1` implies `ST = IDLE`". -/
  doneIdle : s.done = true → s.st = .idle
  /-- R39: "read while `ST = IDLE` after a completion, `IDX = D.SIZE`". -/
  doneIdx : s.done = true → s.idx = s.desc.ops.size
  /-- R37: "`D.OPC = 0` cannot occur". -/
  busyOpc : s.st = .busy → s.desc.wellFormed
  /-- R24: `IDX` never passes `D.SIZE`. -/
  busyIdx : s.st = .busy → s.idx.toNat ≤ s.desc.ops.size.toNat
  /-- R25, R26: `HALTED` iff a fault is recorded. -/
  haltedCause : s.st = .halted ↔ s.cause ≠ .none
  /-- R197: only `AccessFault` writes `FADDR`. -/
  faddrZero : s.cause ≠ .accessFault → s.faddr = 0
  /-- R197, R39: after `AccessFault`, `IDX` is the index of a sample of the command in `DESC`. -/
  faultIdx : s.cause = .accessFault → s.desc.wellFormed ∧ s.idx.toNat < s.desc.ops.size.toNat
  /-- R64: a host write is held against a command only while that command is in execution. -/
  idleWrote : s.st ≠ .busy → s.hostWrote = []
  /-- R64: the host writes held are to bytes the command reads or writes. -/
  busyWrote : ∀ i, s.desc = instrDescriptor i → ∀ a ∈ s.hostWrote, isSourceByte i a = true ∨ isDestByte i a = true

/-- The command `i` is in execution: the engine is `BUSY` and `DESC` holds it. -/
abbrev inExecution (i : Instr) (s : State) : Prop := s.st = .busy ∧ s.desc = instrDescriptor i

/-- The command `i` is in execution and has a sample left (R37: the `Sample` step is enabled). -/
abbrev samplePending (i : Instr) (s : State) : Prop :=
  inExecution i s ∧ s.idx.toNat < i.ops.size.toNat

/-- The platform admits the byte and it is ordinary memory (R51). -/
abbrev accessible (s : State) (a : Addr) : Prop := mapped s a = true ∧ isDevice s a = false

/-- Every byte of the next sample, source and destination, is mapped ordinary memory. -/
abbrev sampleAccessible (i : Instr) (s : State) : Prop :=
  (∀ a ∈ sourceBytes i s.idx, accessible s a) ∧ ∀ a ∈ destBytes i s.idx, accessible s a

/-- The sample in flight meets device memory: every source byte is mapped and one is device memory, or the source
is ordinary memory, every destination byte is mapped and one is device memory (R51, R54, R55; log 5). -/
abbrev meetsDevice (i : Instr) (s : State) : Prop :=
  ((∀ b ∈ sourceBytes i s.idx, mapped s b = true) ∧ ∃ b ∈ sourceBytes i s.idx, isDevice s b = true) ∨
    ((∀ b ∈ sourceBytes i s.idx, accessible s b) ∧ (∀ b ∈ destBytes i s.idx, mapped s b = true) ∧
      ∃ b ∈ destBytes i s.idx, isDevice s b = true)

/-- Sample `k` is the last of the samples `0 .. n - 1` that writes byte `b`, in the order of R62. -/
abbrev lastWriter (i : Instr) (n k : Nat) (b : Addr) : Prop :=
  k < n ∧ b ∈ destBytes i (BitVec.ofNat 32 k) ∧ ∀ j, k < j → j < n → b ∉ destBytes i (BitVec.ofNat 32 j)

/-- R64: destination sample `k` is one the host wrote into, or is computed from a sample the host wrote into, given
the bytes it wrote: directly, or through a destination sample of that kind whose bytes sample `k` reads. -/
inductive ComputedFrom (i : Instr) (wrote : List Addr) : Nat → Prop
  /-- The host wrote a byte of source or destination sample `k`. -/
  | direct {k : Nat} {a : Addr} (ha : a ∈ wrote)
      (hk : a ∈ sourceBytes i (BitVec.ofNat 32 k) ∨ a ∈ destBytes i (BitVec.ofNat 32 k)) : ComputedFrom i wrote k
  /-- A byte of source sample `k` was last written by such a sample before it. -/
  | through {k j : Nat} {c : Addr} (hc : c ∈ sourceBytes i (BitVec.ofNat 32 k)) (hj : lastWriter i k j c)
      (h : ComputedFrom i wrote j) : ComputedFrom i wrote k

/-- A binary64 magnitude: fewer than 54 significant bits, below the overflow limit (R113), in units of
`2^(-1074)`. -/
def representable (m : Nat) : Prop := m < f64Limit ∧ ∃ sig e : Nat, sig < 2 ^ 53 ∧ m = sig * 2 ^ e

/-- The value is one a binary64 pattern denotes (R113). -/
def F64.isBinary64 : F64 → Prop
  | .fin _ m => representable m
  | _ => True

/-- The commands the host has still to have accepted, in order. -/
def commandsLeft (s : State) : List RawDesc :=
  s.inbox.filterMap fun m => match m with
    | .issue raw => some raw
    | _ => none

/-- A run starts here (R227): a finite list of commands, issued from an `IDLE` core. The host asserts no reset
in a run: that abandons the command and is no command of the list. -/
abbrev runStart (s : State) : Prop := s.st = .idle ∧ HostMove.reset ∉ s.inbox

/-- The run that started at `s₀` has ended well at `s` (R227): every command has been accepted and `ST = IDLE`
with `DONE = 1`, or the list was empty and `ST = IDLE`. Other moves of the host may be left. -/
abbrev runEnded (s₀ s : State) : Prop :=
  commandsLeft s = [] ∧ s.st = .idle ∧ (s.done = true ∨ commandsLeft s₀ = [])

/-- The run has ended in a fault (R227): "never a successful final state". -/
abbrev runFailed (s : State) : Prop := s.st = .halted

end Sys2Proof.Machine
end

