-- ==== Sys2Proof/Certificates/Slice0/Obligations.lean ====
section
/-! DEFINITION. The statements for the provers. Each docstring names the rule it formalises. "Free value"
means that the statement holds whatever the value is. -/

open Sys2Proof Sys2Proof.Machine

/-! ### Encoding (30_encoding.md) -/

/-- R80 to R85: decoding the descriptor of a command gives the command back, with every operand at every
value its field admits, the ignored ones included. -/
def Obligations.DecodeInvertsEncode : Prop := ∀ i : Instr, decode (encode i) = .ok i

/-- R80 to R86: a legal descriptor has no bit that its command does not determine. -/
def Obligations.EncodeInvertsDecode : Prop :=
  ∀ (raw : RawDesc) (i : Instr), decode raw = .ok i → encode i = raw

/-- R86, R35: exactly the descriptors that fail one of the three clauses are illegal, and presenting one in
`IDLE` raises `IllegalDescriptor`: `ST`, `CAUSE` and `DONE` are written and nothing else (the host's move is
used up). A legal one is some command's. -/
def Obligations.IllegalDescriptorRaisesFault : Prop :=
  ∀ raw : RawDesc,
    (legalDescriptor raw → ∃ i, decode raw = .ok i) ∧
    (¬ legalDescriptor raw → ∀ (s : State) (rest : List HostMove), s.st = .idle →
      s.inbox = .issue raw :: rest →
      step s = .next { s with inbox := rest, st := .halted, cause := .illegalDescriptor, done := false })

/-- R81, R82, R84: each operand of a decoded command is one contiguous field of the descriptor, taken as it
stands, and `OPC` is the code of the operation. -/
def Obligations.OperandFieldsAreContiguous : Prop :=
  ∀ (raw : RawDesc) (i : Instr), decode raw = .ok i →
    instrOpc i = raw.extractLsb' 0 2 ∧
    i.ops.size = raw.extractLsb' 32 32 ∧ i.ops.src = raw.extractLsb' 64 32 ∧
    i.ops.dst = raw.extractLsb' 96 32 ∧ i.ops.offset = raw.extractLsb' 128 64 ∧
    i.ops.scale = raw.extractLsb' 192 64 ∧ i.ops.black = raw.extractLsb' 256 16 ∧
    i.ops.white = raw.extractLsb' 272 16 ∧ i.ops.tmin = raw.extractLsb' 288 16 ∧
    i.ops.tmax = raw.extractLsb' 304 16 ∧ i.ops.drange = raw.extractLsb' 320 16 ∧
    i.ops.bpp = raw.extractLsb' 352 32

/-- R90 and the descriptors of programs P2 and P3 (95_test_vectors.md): the words written out there decode
to the commands they stand for, and the assembler line of R90 gives the words of R90 (R88). -/
def Obligations.WorkedEncodings : Prop :=
  decode (rawOfWords [0x00000001, 0x00000003, 0x00001000, 0x00000000, 0x00000000, 0x00000000, 0x00000000,
      0x3FF00000, 0x00C80032, 0x00FF0000, 0x000000FF, 0x00000000]) =
    .ok (.pvs8 ⟨3, 0x1000, 0, 0, 0x3FF0000000000000, 50, 200, 0, 255, 255, 0⟩) ∧
  decode (rawOfWords [0x00000002, 0x00000006, 0x00002000, 0x00003000, 0x00000000, 0x40E00000, 0x00000000,
      0x3FF00000, 0xEA6003E8, 0xFFFF0000, 0x0000FFFF, 0x00000000]) =
    .ok (.pvs16 ⟨6, 0x2000, 0x3000, 0x40E0000000000000, 0x3FF0000000000000, 1000, 60000, 0, 65535, 65535, 0⟩) ∧
  decode (rawOfWords [0x00000003, 0x00000008, 0x00004000, 0x00005000, 0x00000000, 0x00000000, 0x00000000,
      0x00000000, 0xEA6003E8, 0xFFFF0000, 0x0000FFFF, 0x00000020]) =
    .ok (.pvs32 ⟨8, 0x4000, 0x5000, 0, 0, 1000, 60000, 0, 65535, 65535, 32⟩) ∧
  (assembleLine "PVS8 0x1000, 3, 0.0, 1.0, 50, 200, 0, 255, 255".toList).map encodeWords =
    some [0x00000001, 0x00000003, 0x00001000, 0x00000000, 0x00000000, 0x00000000, 0x00000000, 0x3FF00000,
      0x00C80032, 0x00FF0000, 0x000000FF, 0x00000000]

/-! ### Which instruction a step runs -/

/-- R34 to R38: which instruction a step runs. In `IDLE`, a presented descriptor that decodes to a command:
the step is `exec` of the command, after the host's move is used up. While a command is in execution, that
command: when the host has no move, when it must wait with a descriptor, and when it waits. What the step adds
there, `settled`, is the model's: where the command ends, the samples the host wrote into hold any value (R64,
log 10); it adds nothing when the host wrote into none. -/
def Obligations.StepRunsTheDecodedCommand : Prop :=
  ∀ (s : State) (i : Instr),
    (∀ raw rest, s.st = .idle → s.inbox = .issue raw :: rest → decode raw = .ok i →
      step s = exec i { s with inbox := rest }) ∧
    (inExecution i s → s.inbox = [] → step s = settled (exec i s)) ∧
    (∀ raw rest, inExecution i s → s.inbox = .issue raw :: rest → step s = settled (exec i s)) ∧
    (∀ rest, inExecution i s → s.inbox = .wait :: rest → step s = settled (exec i { s with inbox := rest })) ∧
    (inExecution i s → s.hostWrote = [] → settled (exec i s) = exec i s)

/-- R36: a command given to the idle engine is accepted: `DESC`, `IDX`, `DONE` and `ST` are written all at
once, no operand is validated, no access is made. The clauses `atAccept := s.mem` and `hostWrote := []` are the
model's choice (logs 11 and 10), and that `exec` of a command in `IDLE` is its acceptance is log 1. -/
def Obligations.AcceptanceLatchesCommand : Prop :=
  ∀ (i : Instr) (s : State), s.st = .idle →
    exec i s = .next { s with
      desc := instrDescriptor i, idx := 0, done := false, st := .busy, atAccept := s.mem, hostWrote := [] }

/-- R34: a descriptor presented while the engine is `BUSY` or `HALTED` is not accepted and has no effect on
any state: the step is the one the engine takes without it, and the host still waits with it; nor has
`exec` of a command that is not the one in execution any effect then. In `IDLE` every descriptor presented is
taken at once, and the engine is no longer `IDLE` (R35, R36). The model's: that the descriptor stays at the head
of the host's moves (log 19), and the clause about `exec` of another command (log 1). -/
def Obligations.PresentedDescriptorHasNoEffect : Prop :=
  (∀ (s : State) (raw : RawDesc) (rest : List HostMove), s.st ≠ .idle → s.inbox = .issue raw :: rest →
    ∀ t : State, step s = .next t →
      t.inbox = s.inbox ∧ step { s with inbox := [] } = .next { t with inbox := [] }) ∧
  (∀ (i : Instr) (s : State), (s.st = .halted ∨ (s.st = .busy ∧ s.desc ≠ instrDescriptor i)) →
    exec i s = .next s) ∧
  ∀ (s : State) (raw : RawDesc) (rest : List HostMove), s.st = .idle → s.inbox = .issue raw :: rest →
    ∃ t, step s = .next t ∧ t.inbox = rest ∧ t.st ≠ .idle

/-- R205: in `IDLE` with no descriptor presented, the core simply waits; R199: so does the halted core. -/
def Obligations.QuietEngineWaits : Prop :=
  ∀ s : State, s.st ≠ .busy → s.inbox = [] → step s = .next s

/-! ### The operations (41_pvs8.md, 42_pvs16.md, 43_pvs32.md) -/

/-- R150, R37: one sample of PVS8. Where the byte at `ea` is ordinary memory the command writes its image there,
`IDX` advances, and nothing else changes. Where it is unmapped the read raises `AccessFault`. -/
def Obligations.Pvs8TransformsSample : Prop :=
  ∀ (d : Operands) (s : State), samplePending (.pvs8 d) s →
    let ea := effAddr d.src s.idx 1
    (mapped s ea = false →
      exec (.pvs8 d) s = .next { s with st := .halted, cause := .accessFault, done := false, faddr := ea }) ∧
    (Memory.wf s.mem → accessible s ea →
      ∃ m : Memory, exec (.pvs8 d) s = .next { s with mem := m, idx := s.idx + 1 } ∧
        readByte m ea = stretch (lso 8 (readByte s.mem ea).toNat (valF64 d.offset) (valF64 d.scale))
          d.black d.white d.tmin d.tmax d.drange ∧
        ∀ a : Addr, a ≠ ea → readByte m a = readByte s.mem a)

/-- R160, R37: one sample of PVS16. The two source bytes are read as a signed number, little-endian; the
16-bit result is stored little-endian at the destination; nothing else changes but `IDX`. -/
def Obligations.Pvs16TransformsSample : Prop :=
  ∀ (d : Operands) (s : State), Memory.wf s.mem → samplePending (.pvs16 d) s →
    sampleAccessible (.pvs16 d) s →
    let sa := effAddr d.src s.idx 2
    let da := effAddr d.dst s.idx 2
    let p : Half := readByte s.mem (sa + 1) ++ readByte s.mem sa
    let out := stretch (lso 16 p.toInt (valF64 d.offset) (valF64 d.scale))
      d.black d.white d.tmin d.tmax d.drange
    ∃ m : Memory, exec (.pvs16 d) s = .next { s with mem := m, idx := s.idx + 1 } ∧
      readByte m da = out.extractLsb' 0 8 ∧ readByte m (da + 1) = out.extractLsb' 8 8 ∧
      ∀ a : Addr, a ≠ da → a ≠ da + 1 → readByte m a = readByte s.mem a

/-- R170, R37: one sample of PVS32. The four source bytes, little-endian, go through the conversion that
`BPP` selects and the stretch; the 16-bit result is stored little-endian; nothing else changes but `IDX`. -/
def Obligations.Pvs32TransformsSample : Prop :=
  ∀ (d : Operands) (s : State), Memory.wf s.mem → samplePending (.pvs32 d) s →
    sampleAccessible (.pvs32 d) s →
    let sa := effAddr d.src s.idx 4
    let da := effAddr d.dst s.idx 2
    let raw : Word := readByte s.mem (sa + 3) ++ readByte s.mem (sa + 2) ++ readByte s.mem (sa + 1) ++
      readByte s.mem sa
    let out := stretch (conv32 raw d.bpp d.tmax) d.black d.white d.tmin d.tmax d.drange
    ∃ m : Memory, exec (.pvs32 d) s = .next { s with mem := m, idx := s.idx + 1 } ∧
      readByte m da = out.extractLsb' 0 8 ∧ readByte m (da + 1) = out.extractLsb' 8 8 ∧
      ∀ a : Addr, a ≠ da → a ≠ da + 1 → readByte m a = readByte s.mem a

/-- R54, R55, R196, R197: the first unmapped byte, of the source read in increasing address order, else of
the destination write, raises `AccessFault` with that address; `IDX`, `DESC` and all of memory are unchanged. -/
def Obligations.FirstUnmappedByteFaults : Prop :=
  ∀ (i : Instr) (s : State) (a : Addr), samplePending i s →
    ((sourceBytes i s.idx).find? (fun b => !mapped s b) = some a ∨
      ((∀ b ∈ sourceBytes i s.idx, accessible s b) ∧
        (destBytes i s.idx).find? (fun b => !mapped s b) = some a)) →
    exec i s = .next { s with st := .halted, cause := .accessFault, done := false, faddr := a }

/-- R38: the command whose samples are all processed completes, with no memory access. For `SIZE = 0` this
is its only step after acceptance. -/
def Obligations.CompletionReturnsToIdle : Prop :=
  ∀ (i : Instr) (s : State), inExecution i s → s.idx = i.ops.size →
    exec i s = .next { s with st := .idle, done := true }

/-- The frame of all three operations. Whatever step a command takes: the platform's map, the host's moves
and the host's bus are unchanged; a byte of memory changes only if it is a destination byte of the sample of
the command in execution (R57); outside acceptance `DESC` and `atAccept` are unchanged, and `IDX` but for a
sample; `CAUSE` and `FADDR` change only by a fault entry, which ends in `HALTED`. No free value is drawn, and
outside acceptance the account of the host's writes stands. -/
def Obligations.CommandStepFrame : Prop :=
  ∀ (i : Instr) (s t : State), exec i s = .next t →
    t.map = s.map ∧ t.inbox = s.inbox ∧ t.bus = s.bus ∧ t.fresh = s.fresh ∧
    (∀ a : Addr, (samplePending i s → a ∉ destBytes i s.idx) → readByte t.mem a = readByte s.mem a) ∧
    (s.st ≠ .idle → t.desc = s.desc ∧ t.atAccept = s.atAccept ∧ t.hostWrote = s.hostWrote ∧
      (t.idx = s.idx ∨ samplePending i s)) ∧
    (t.st ≠ .halted → t.cause = s.cause ∧ t.faddr = s.faddr)

/-- R64: what the host's writes while `BUSY` leave unspecified. Every sample is processed as ever. At the step that
ends the command, with its last sample or with a fault, every unspecified byte of ordinary memory becomes a free
value of its own, and no other byte differs from what the engine left. The unspecified bytes are those of every
source or destination sample of the command with a byte the host wrote, and those a processed sample computed from
one wrote last. (The treatment is the model's: log 10.) -/
def Obligations.TouchedSamplesEndUnspecified : Prop :=
  (∀ (i : Instr) (s t : State), Memory.wf s.mem → inExecution i s → s.inbox = [] → exec i s = .next t →
    (t.st = .busy → step s = .next t) ∧
    (t.st ≠ .busy → ∃ (m : Memory) (n : Nat) (index : Addr → Nat),
      step s = .next { t with mem := m, hostWrote := [], fresh := n } ∧
        (∀ a ∈ unspecifiedBytes i s.hostWrote s.idx.toNat, accessible s a →
          s.fresh ≤ index a ∧ index a < n ∧ readByte m a = Config.freeByte (index a) ∧
            ∀ b ∈ unspecifiedBytes i s.hostWrote s.idx.toNat, accessible s b → index b = index a → b = a) ∧
        ∀ a : Addr, (a ∈ unspecifiedBytes i s.hostWrote s.idx.toNat → ¬ accessible s a) →
          readByte m a = readByte t.mem a)) ∧
  ∀ (i : Instr) (wrote : List Addr) (n : Nat) (b : Addr), b ∈ unspecifiedBytes i wrote n ↔
    (∃ a ∈ wrote, ∃ k < i.ops.size.toNat,
      (a ∈ sourceBytes i (BitVec.ofNat 32 k) ∧ b ∈ sourceBytes i (BitVec.ofNat 32 k)) ∨
        (a ∈ destBytes i (BitVec.ofNat 32 k) ∧ b ∈ destBytes i (BitVec.ofNat 32 k))) ∨
      ∃ k, lastWriter i n k b ∧ ComputedFrom i wrote k

/-- R51: where every byte of the source is mapped and one is device memory, or the source is ordinary and
the destination is so, the model refuses: the spec does not define what the engine does there. -/
def Obligations.DeviceMemoryIsRefused : Prop :=
  ∀ (i : Instr) (s : State), samplePending i s → meetsDevice i s → exec i s = .refused .deviceMemory

/-! ### The stretch stage (40_lsoc_unit.md R122 to R127) -/

/-- R123, R152 (b), R163 (b): at or below the black point the output is `TMIN`, whatever `WHITE` is; above it
and at or above the white point it is `TMAX`, modulo 2^W; so with `WHITE <= BLACK` the stage is the two-level
function `v <= BLACK ? TMIN : TMAX`. -/
def Obligations.ClampsGiveTargetBounds : Prop :=
  ∀ (w : Nat) (v : BitVec w) (black white tmin tmax drange : Half),
    (v.toNat ≤ black.toNat → (stretch v black white tmin tmax drange).toNat = tmin.toNat % 2 ^ w) ∧
    (black.toNat < v.toNat → white.toNat ≤ v.toNat →
      (stretch v black white tmin tmax drange).toNat = tmax.toNat % 2 ^ w) ∧
    (white.toNat ≤ black.toNat → stretch v black white tmin tmax drange =
      if v.toNat ≤ black.toNat then tmin.setWidth w else tmax.setWidth w)

/-- R124: the remap is a finite value, never negative; below `DRANGE` when `DRANGE >= 1`, and +0.0 when
`DRANGE = 0`; so the remap branch never gives `DRANGE` itself. -/
def Obligations.RemapStaysBelowDeviceRange : Prop :=
  ∀ num den drange : Nat, 0 < num → num < den → den ≤ 65535 → drange ≤ 65535 →
    ∃ m : Nat, remap num den drange = .fin false m ∧
      (1 ≤ drange → m < drange * f64One) ∧ (drange = 0 → m = 0)

/-- R125: for `WHITE > BLACK`, and `DRANGE <= 2^W` (always so for W = 16; `DRANGE <= 256` for W = 8), the
remap branch is non-decreasing in the sample over `BLACK < v < WHITE`; and if all its values lie between
`TMIN` and `TMAX`, the whole stage is non-decreasing. -/
def Obligations.StretchIsMonotone : Prop :=
  ∀ (w : Nat) (black white tmin tmax drange : Half), (w = 8 ∨ w = 16) → black.toNat < white.toNat →
    drange.toNat ≤ 2 ^ w →
    (∀ v v' : BitVec w, black.toNat < v.toNat → v.toNat ≤ v'.toNat → v'.toNat < white.toNat →
      (stretch v black white tmin tmax drange).toNat ≤ (stretch v' black white tmin tmax drange).toNat) ∧
    (tmin.toNat < 2 ^ w → tmax.toNat < 2 ^ w → tmin.toNat ≤ tmax.toNat →
      (∀ v : BitVec w, black.toNat < v.toNat → v.toNat < white.toNat →
        tmin.toNat ≤ (stretch v black white tmin tmax drange).toNat ∧
          (stretch v black white tmin tmax drange).toNat ≤ tmax.toNat) →
      ∀ v v' : BitVec w, v.toNat ≤ v'.toNat →
        (stretch v black white tmin tmax drange).toNat ≤ (stretch v' black white tmin tmax drange).toNat)

/-- R126: the remap is evaluated in binary64: for 7, 10, 90 the exact quotient is 63 and the result is 62. -/
def Obligations.RemapIsNotTheExactQuotient : Prop :=
  7 * 90 / 10 = 63 ∧ truncZ (remap 7 10 90) = 62 ∧ (stretch (7 : Byte) 0 10 0 255 90).toNat = 62

/-- R127, W = 8: with the identity operands the stretch returns every sample. -/
def Obligations.IdentityStretchOfBytes : Prop :=
  ∀ v : Byte, stretch v 0 255 0 255 255 = v

/-- R127, W = 16: with the identity operands the stretch returns every sample. -/
def Obligations.IdentityStretchOfHalves : Prop :=
  ∀ v : Half, stretch v 0 65535 0 65535 65535 = v

/-! ### The scale/offset stage (40_lsoc_unit.md R120, R121, 42_pvs16.md R162) -/

/-- R121: where the offset equals 0 and the scale equals 1 as numbers, the computed branch gives the
sample's own pattern, so the test is unobservable. -/
def Obligations.BypassIsUnobservable : Prop :=
  ∀ (n : Nat) (v : Int) (offset scale : F64), v.natAbs ≤ 65535 →
    feq64 offset (toF64 0) = true → feq64 scale (toF64 1) = true →
    narrowF n (fadd64 offset (fmul64 scale (toF64 v))) = BitVec.ofInt n v ∧
      lso n v offset scale = BitVec.ofInt n v

/-- R120, R117: a NaN or infinite offset or scale gives 0 for every sample. -/
def Obligations.NonFiniteCoefficientsGiveZero : Prop :=
  ∀ (n : Nat) (v : Int) (offset scale : F64), (isFinite offset = false ∨ isFinite scale = false) →
    lso n v offset scale = 0

/-- R110, R120: with whole-number coefficients the stage is exact and wraps: the result is
`(offset + scale * v) mod 2^N`. -/
def Obligations.WholeCoefficientsWrapAround : Prop :=
  ∀ (n : Nat) (v a b : Int), v.natAbs ≤ 65535 → a.natAbs ≤ 2 ^ 53 → b.natAbs ≤ 2 ^ 53 →
    (b * v).natAbs ≤ 2 ^ 53 → (a + b * v).natAbs ≤ 2 ^ 53 →
    lso n v (toF64 a) (toF64 b) = BitVec.ofInt n (a + b * v)

/-- R162: with `OFFSET = 32768.0` and `SCALE = 1.0` the working value of PVS16 is `v + 32768` for every
sample; and so it is for every offset that is a whole number congruent to 32768 modulo 65536, up to the size
at which the binary64 sum is no longer exact (R114: there the sum rounds, and R162's "any" does not hold). -/
def Obligations.BzeroConventionShiftsByHalf : Prop :=
  valF64 0x40E0000000000000 = toF64 32768 ∧ valF64 0x3FF0000000000000 = toF64 1 ∧
  ∀ (p : Half) (k : Int), (32768 + 65536 * k).natAbs ≤ 2 ^ 52 →
    ((lso 16 p.toInt (toF64 (32768 + 65536 * k)) (toF64 1)).toNat : Int) = p.toInt + 32768

/-! ### Binary64 (40_lsoc_unit.md R113 to R119) -/

/-- R116: `truncZ` discards the fraction: `|n| <= |x| < |n| + 1`, with the sign of `x` or 0. -/
def Obligations.TruncationDiscardsFraction : Prop :=
  ∀ (neg : Bool) (m : Nat),
    (truncZ (.fin neg m)).natAbs * f64One ≤ m ∧ m < ((truncZ (.fin neg m)).natAbs + 1) * f64One ∧
    (neg = false → 0 ≤ truncZ (.fin neg m)) ∧ (neg = true → truncZ (.fin neg m) ≤ 0)

/-- R114: rounding gives a value with at most 53 significant bits; no other such value is nearer to the
exact fraction, and of two equally near the one with the even fraction is taken. -/
def Obligations.RoundingIsNearestEven : Prop :=
  ∀ num den : Nat, 0 < den →
    (∃ sig e : Nat, sig < 2 ^ 53 ∧ roundMag num den = sig * 2 ^ e) ∧
    ∀ m sig e : Nat, sig < 2 ^ 53 → m = sig * 2 ^ e →
      ((roundMag num den * den : Nat) - num : Int).natAbs ≤ ((m * den : Nat) - num : Int).natAbs ∧
      (((roundMag num den * den : Nat) - num : Int).natAbs = ((m * den : Nat) - num : Int).natAbs →
        m ≠ roundMag num den → roundMag num den / 2 ^ spacingExp num den % 2 = 0)

/-- R114: the sum, the product and the quotient of binary64 values are binary64 values. -/
def Obligations.ArithmeticStaysInBinary64 : Prop :=
  ∀ x y : F64, x.isBinary64 → y.isBinary64 →
    (fadd64 x y).isBinary64 ∧ (fmul64 x y).isBinary64 ∧ (fdiv64 x y).isBinary64

/-- R113, R118, R119: every 64-bit pattern denotes a binary64 value, and so does every 32-bit pattern read
as binary32. -/
def Obligations.PatternsDenoteBinary64 : Prop :=
  (∀ p : DWord, (valF64 p).isBinary64) ∧ ∀ w : Word, (valF32 w).isBinary64

/-- R113: the pattern packed for a binary64 value denotes that value. -/
def Obligations.PackedPatternDenotesValue : Prop :=
  ∀ x : F64, x.isBinary64 → valF64 (packF64 x) = x

/-! ### The conversion of PVS32 (43_pvs32.md R171 to R176) -/

/-- R172: integer mode, by ranges of the signed sample. -/
def Obligations.IntegerModeByRanges : Prop :=
  ∀ (raw : Word) (tmax : Half),
    (0 ≤ raw.toInt → raw.toInt ≤ 65535 → ((conv32 raw 32 tmax).toNat : Int) = raw.toInt) ∧
    (65536 ≤ raw.toInt → raw.toInt ≤ 16777215 → ((conv32 raw 32 tmax).toNat : Int) = raw.toInt % 65536) ∧
    (16777216 ≤ raw.toInt → conv32 raw 32 tmax = tmax) ∧
    (-32768 ≤ raw.toInt → raw.toInt ≤ -1 → ((conv32 raw 32 tmax).toNat : Int) = raw.toInt + 65536) ∧
    (raw.toInt ≤ -32769 → ((conv32 raw 32 tmax).toNat : Int) = raw.toInt % 65536)

/-- R174: every `BPP` other than 32 and -32 keeps the low 16 bits of the pattern, without the guard. -/
def Obligations.OtherBppKeepsLowHalf : Prop :=
  ∀ (raw bpp : Word) (tmax : Half), bpp.toInt ≠ 32 → bpp.toInt ≠ -32 →
    conv32 raw bpp tmax = raw.extractLsb' 0 16

/-- R173, R119: float mode. A value in (-1, 65536) gives its integer part; any other finite value gives its
integer part modulo 2^16, NaN and the infinities give 0; `TMAX` is not used. -/
def Obligations.FloatModeTruncates : Prop :=
  ∀ (raw : Word) (tmax : Half),
    (∀ neg m, valF32 raw = .fin neg m →
      ((conv32 raw (-32) tmax).toNat : Int) = truncZ (.fin neg m) % 65536 ∧
      (neg = true → m < f64One → (conv32 raw (-32) tmax).toNat = 0) ∧
      (neg = false → m < 65536 * f64One → (conv32 raw (-32) tmax).toNat = m / f64One)) ∧
    (isFinite (valF32 raw) = false → conv32 raw (-32) tmax = 0)

/-- R175: a guarded sample enters the stretch as `TMAX`. The output is `TMAX` if `TMAX > BLACK` and
`TMAX >= WHITE`, `TMIN` if `TMAX <= BLACK`, and the remap of `TMAX` if `BLACK < TMAX < WHITE`. -/
def Obligations.GuardedSampleOutput : Prop :=
  ∀ (d : Operands) (raw : Word), d.bpp.toInt = 32 → 16777216 ≤ raw.toInt →
    (d.black.toNat < d.tmax.toNat → d.white.toNat ≤ d.tmax.toNat → pvs32Sample d raw = d.tmax) ∧
    (d.tmax.toNat ≤ d.black.toNat → pvs32Sample d raw = d.tmin) ∧
    (d.black.toNat < d.tmax.toNat → d.tmax.toNat < d.white.toNat →
      pvs32Sample d raw = narrowF 16
        (remap (d.tmax.toNat - d.black.toNat) (d.white.toNat - d.black.toNat) d.drange.toNat))

/-- R176: one pattern, three readings. -/
def Obligations.OnePatternThreeReadings : Prop :=
  (0x447A3000 : Word).toInt = 1148858368 ∧
  ∀ tmax : Half, conv32 0x447A3000 (-32) tmax = 1000 ∧ conv32 0x447A3000 32 tmax = tmax ∧
    ∀ bpp : Word, bpp.toInt ≠ 32 → bpp.toInt ≠ -32 → conv32 0x447A3000 bpp tmax = 12288

/-! ### Memory (20_memory.md) -/

/-- R53: the effective address and the bytes of a sample, as numbers modulo 2^32. -/
def Obligations.EffectiveAddressWraps : Prop :=
  ∀ (base : Addr) (i : Word) (es n : Nat),
    (effAddr base i es).toNat = (base.toNat + i.toNat * es) % 2 ^ 32 ∧
    (byteAddrs (effAddr base i es) n).map BitVec.toNat =
      (List.range n).map fun k => (base.toNat + i.toNat * es + k) % 2 ^ 32

/-- R52, R54: what a 16-bit and a 32-bit read of accessible bytes return. -/
def Obligations.ReadsAreLittleEndian : Prop :=
  ∀ (s : State) (a : Addr),
    ((∀ b ∈ byteAddrs a 2, accessible s b) →
      memRead s a 2 = .ok ((readByte s.mem a).toNat + 256 * (readByte s.mem (a + 1)).toNat)) ∧
    ((∀ b ∈ byteAddrs a 4, accessible s b) →
      memRead s a 4 = .ok ((readByte s.mem a).toNat + 2 ^ 8 * (readByte s.mem (a + 1)).toNat +
        2 ^ 16 * (readByte s.mem (a + 2)).toNat + 2 ^ 24 * (readByte s.mem (a + 3)).toNat))

/-- R55, R54: a 16-bit value written to accessible bytes is read back, and every byte outside the two is as
before. -/
def Obligations.WriteThenReadReturnsValue : Prop :=
  ∀ (s : State) (a : Addr) (v : Half), Memory.wf s.mem → (∀ b ∈ byteAddrs a 2, accessible s b) →
    ∃ cells, memWrite s a v = .ok cells ∧
      memRead { s with mem := writeCells s.mem cells } a 2 = .ok v.toNat ∧
      ∀ b : Addr, b ∉ byteAddrs a 2 → readByte (writeCells s.mem cells) b = readByte s.mem b

/-! ### Status, reset, the host (10_state.md, 60_exceptions.md, 70_reset_and_hazards.md) -/

/-- R27, R33, R191: the layout of `STATUS` with the codes of `CAUSE`, and the two outputs. -/
def Obligations.StatusWordLayout : Prop :=
  ∀ s : State,
    ((statusWord s).getLsbD 0 = true ↔ s.st = .busy) ∧ (statusWord s).getLsbD 1 = s.done ∧
    ((statusWord s).getLsbD 2 = true ↔ s.st = .halted) ∧
    ((statusWord s).extractLsb' 3 2 = 0#2 ↔ s.cause = .none) ∧
    ((statusWord s).extractLsb' 3 2 = 1#2 ↔ s.cause = .illegalDescriptor) ∧
    ((statusWord s).extractLsb' 3 2 = 2#2 ↔ s.cause = .accessFault) ∧
    (statusWord s).extractLsb' 5 27 = 0 ∧
    doneOutput s = s.done ∧ (faultOutput s = true ↔ s.st = .halted)

/-- R40: what reset leaves, as the state and as the status port shows it (R27's reset column); and R205: with
no command issued, the core waits for ever. The values of `DESC` and of memory at power-on are the model's
(logs 6 and 7) and are not stated. -/
def Obligations.ResetStateValues : Prop :=
  State.reset.st = .idle ∧ State.reset.done = false ∧ State.reset.cause = .none ∧ State.reset.faddr = 0 ∧
    State.reset.idx = 0 ∧ intToUshortOverflowThreshold = 16777215 ∧ statusWord State.reset = 0 ∧
    ∀ n : Nat, Sys2Proof.core.run n State.reset = .next State.reset

/-- R220, R40: reset in any state. Unless the sample in flight meets device memory (R51), it succeeds, also where
that sample meets an unmapped byte, and leaves `ST`, `DONE`, `CAUSE`, `FADDR` and `IDX` as R40 says; outside `BUSY`
memory is not touched. -/
def Obligations.ResetFromAnyState : Prop :=
  ∀ (s : State) (rest : List HostMove), s.inbox = .reset :: rest →
    ((∀ i, samplePending i s → ¬ meetsDevice i s) →
      ∃ t, step s = .next t ∧ t.st = .idle ∧ t.done = false ∧ t.cause = .none ∧ t.faddr = 0 ∧ t.idx = 0 ∧
        t.map = s.map ∧ t.inbox = rest ∧ (s.st ≠ .busy → t.mem = s.mem)) ∧
    (∀ t, step s = .next t → t.st = .idle ∧ t.done = false ∧ t.cause = .none ∧ t.faddr = 0 ∧ t.idx = 0)

/-- R221: reset while a command is in execution, with a sample in flight or none left. Each byte of memory keeps its
value, or is a destination byte of the one sample in flight and holds the value the engine would have written,
unless it is a byte that the host's writes into the command left unspecified (R64), before that sample or with it;
such a byte, before that sample, of ordinary memory ends as a free value. -/
def Obligations.ResetLeavesOldOrNewBytes : Prop :=
  ∀ (s t : State) (i : Instr) (rest : List HostMove), Memory.wf s.mem → inExecution i s →
    s.inbox = .reset :: rest → step s = .next t →
    (∀ a : Addr, readByte t.mem a = readByte s.mem a ∨
      (samplePending i s ∧ a ∈ destBytes i s.idx ∧ ∃ u, exec i s = .next u ∧ readByte t.mem a = readByte u.mem a) ∨
      a ∈ unspecifiedBytes i s.hostWrote s.idx.toNat ∨
      (samplePending i s ∧ a ∈ unspecifiedBytes i s.hostWrote (s.idx.toNat + 1))) ∧
    ∀ a ∈ unspecifiedBytes i s.hostWrote s.idx.toNat, accessible s a →
      ∃ k, s.fresh ≤ k ∧ k < t.fresh ∧ readByte t.mem a = Config.freeByte k

/-- R199: `HALTED` is left only by reset; until then no step of the engine and no move of the host changes
`CAUSE`, `FADDR`, `IDX`, `DESC` or `DONE`. -/
def Obligations.OnlyResetLeavesHalted : Prop :=
  ∀ s t : State, s.st = .halted → step s = .next t → (∀ rest, s.inbox ≠ .reset :: rest) →
    t.st = .halted ∧ t.cause = s.cause ∧ t.faddr = s.faddr ∧ t.idx = s.idx ∧ t.desc = s.desc ∧
      t.done = s.done

/-- R23: `DESC` is written by command acceptance, which happens in `IDLE` only, and by nothing else: every
step leaves it as it was, but for a reset (R220) and for the acceptance of a presented descriptor. -/
def Obligations.DescriptorIsWrittenByAcceptance : Prop :=
  ∀ s t : State, step s = .next t →
    t.desc = s.desc ∨ (∃ rest, s.inbox = .reset :: rest) ∨
      ∃ raw rest i, s.st = .idle ∧ s.inbox = .issue raw :: rest ∧ decode raw = .ok i ∧
        t.desc = instrDescriptor i

/-- R51: `Mapped` does not change: no step writes the platform's map. -/
def Obligations.PlatformMapNeverChanges : Prop :=
  ∀ s t : State, step s = .next t → t.map = s.map

/-- R39: a read of `STATUS` always returns its current value; outside `BUSY`, reads of `IDX` and `FADDR`
return the registers. Reading a register changes nothing the spec gives the machine. -/
def Obligations.StatusReadsReturnRegisters : Prop :=
  ∀ (s : State) (r : StatusReg) (rest : List HostMove), s.inbox = .readReg r :: rest →
    ∃ v : Word, step s = .next { s with inbox := rest, bus := v, fresh := s.fresh + 1 } ∧
      (r = .status → v = statusWord s) ∧ (s.st ≠ .busy → r = .idx → v = s.idx) ∧
      (s.st ≠ .busy → r = .faddr → v = s.faddr)

/-- R64, R63: a host read of an accessible byte. Outside `BUSY` it reads as the byte in memory. While a command is
in execution: a destination byte reads, by a free choice, as the byte at acceptance or as the byte the engine has
there after some number of the samples left, as far as they are processed, any number by a free choice, unless it is
then unspecified; any other byte reads as the byte in memory, unless it is unspecified; and an unspecified byte, such
as every byte of a sample the host wrote into, reads as a free value (log 11). -/
def Obligations.HostReadsOldOrNewByte : Prop :=
  ∀ (s : State) (a : Addr) (rest : List HostMove), s.inbox = .peek a :: rest → accessible s a →
    ∃ b : Byte, step s = .next { s with inbox := rest, bus := b.setWidth 32, fresh := s.fresh + 1 } ∧
      (s.st ≠ .busy → b = readByte s.mem a) ∧
      ∀ i, inExecution i s →
        (isDestByte i a = true → ∃ n ≤ i.ops.size.toNat - s.idx.toNat,
          n = Config.freeAhead s.fresh % (i.ops.size.toNat - s.idx.toNat + 1) ∧
            let u := runAhead i n { s with inbox := rest }
            (a ∈ unspecifiedBytes i s.hostWrote u.idx.toNat → b = Config.freeByte s.fresh) ∧
            (a ∉ unspecifiedBytes i s.hostWrote u.idx.toNat →
              b = if (Config.freeChoice s.fresh).getLsbD 0 then readByte s.atAccept a else readByte u.mem a)) ∧
        (isDestByte i a = false → a ∉ unspecifiedBytes i s.hostWrote s.idx.toNat → b = readByte s.mem a) ∧
        ((∃ w ∈ s.hostWrote, a ∈ samplesAt i w) → b = Config.freeByte s.fresh)

/-- R63, R64: a host write of an accessible byte that the command in execution neither reads nor writes, or
outside `BUSY`, writes that byte and nothing else. -/
def Obligations.HostWriteOutsideTheCommand : Prop :=
  ∀ (s : State) (a : Addr) (v : Byte) (rest : List HostMove), s.inbox = .poke a v :: rest →
    Memory.wf s.mem → accessible s a →
    (∀ i, inExecution i s → isSourceByte i a = false ∧ isDestByte i a = false) →
    ∃ m : Memory, step s = .next { s with inbox := rest, mem := m } ∧ readByte m a = v ∧
      ∀ b : Addr, b ≠ a → readByte m b = readByte s.mem b

/-- R64: a host write to a byte that the command in execution reads or writes writes that byte, and every byte of
the samples it belongs to is unspecified from then on (log 10). -/
def Obligations.HostWriteInsideTheCommand : Prop :=
  ∀ (s : State) (i : Instr) (a : Addr) (v : Byte) (rest : List HostMove), s.inbox = .poke a v :: rest →
    Memory.wf s.mem → accessible s a → inExecution i s → (isSourceByte i a = true ∨ isDestByte i a = true) →
    ∃ m : Memory, step s = .next { s with inbox := rest, mem := m, hostWrote := a :: s.hostWrote } ∧
      readByte m a = v ∧ (∀ b : Addr, b ≠ a → readByte m b = readByte s.mem b) ∧
      ∀ n : Nat, a ∈ unspecifiedBytes i (a :: s.hostWrote) n ∧
        ∀ b ∈ samplesAt i a, b ∈ unspecifiedBytes i (a :: s.hostWrote) n

/-! ### Invariants -/

/-- The invariant holds after reset (R40). -/
def Obligations.InvariantHoldsAtReset : Prop := State.reset.Inv

/-- Every step keeps the invariant, whatever the host does: canonical memory, `DONE = 1` implies
`ST = IDLE` and `IDX = SIZE` (R27, R39), a busy engine has an operation and `IDX <= SIZE` (R24, R37),
`HALTED` iff a fault is recorded, `FADDR` only by `AccessFault` (R26, R197), host writes are held against the
command in execution only, and are to bytes of it (R64). -/
def Obligations.StepKeepsInvariant : Prop :=
  ∀ s t : State, s.Inv → step s = .next t → t.Inv

/-- R25: "`BUSY`: a command is in execution; the engine has an enabled step": from a state that meets the
invariant, no step ends in the model's fault. -/
def Obligations.InvariantExcludesStuckEngine : Prop :=
  ∀ (s : State) (f : Fault), s.Inv → step s ≠ .fault f

/-! ### Whole commands -/

/-- R151: the effect of a whole PVS8 command. From the idle core, with the command presented and its buffer
in ordinary memory, `SIZE + 2` steps (acceptance, `SIZE` samples, completion) end in `IDLE` with `DONE`;
every byte of the buffer holds the image of the byte it held at acceptance, every other byte is unchanged. -/
def Obligations.WholePvs8Command : Prop :=
  ∀ (d : Operands) (s : State), Memory.wf s.mem → s.st = .idle → s.inbox = [.issue (encode (.pvs8 d))] →
    (∀ i : Nat, i < d.size.toNat → accessible s (d.src + BitVec.ofNat 32 i)) →
    ∃ t, Sys2Proof.core.run (d.size.toNat + 2) s = .next t ∧ t.st = .idle ∧ t.done = true ∧ t.idx = d.size ∧
      (∀ i : Nat, i < d.size.toNat →
        readByte t.mem (d.src + BitVec.ofNat 32 i) =
          stretch (lso 8 (readByte s.mem (d.src + BitVec.ofNat 32 i)).toNat (valF64 d.offset) (valF64 d.scale))
            d.black d.white d.tmin d.tmax d.drange) ∧
      ∀ a : Addr, (∀ i : Nat, i < d.size.toNat → a ≠ d.src + BitVec.ofNat 32 i) →
        readByte t.mem a = readByte s.mem a

/-- R161: the effect of a whole PVS16 command whose destination does not overlap its source. -/
def Obligations.WholePvs16Command : Prop :=
  ∀ (d : Operands) (s : State), Memory.wf s.mem → s.st = .idle → s.inbox = [.issue (encode (.pvs16 d))] →
    (∀ k : Nat, k < 2 * d.size.toNat →
      accessible s (d.src + BitVec.ofNat 32 k) ∧ accessible s (d.dst + BitVec.ofNat 32 k)) →
    (∀ k l : Nat, k < 2 * d.size.toNat → l < 2 * d.size.toNat →
      d.src + BitVec.ofNat 32 k ≠ d.dst + BitVec.ofNat 32 l) →
    ∃ t, Sys2Proof.core.run (d.size.toNat + 2) s = .next t ∧ t.st = .idle ∧ t.done = true ∧ t.idx = d.size ∧
      (∀ i : Nat, i < d.size.toNat →
        let sa := d.src + BitVec.ofNat 32 (2 * i)
        let da := d.dst + BitVec.ofNat 32 (2 * i)
        let p : Half := readByte s.mem (sa + 1) ++ readByte s.mem sa
        (readByte t.mem (da + 1) ++ readByte t.mem da : Half) =
          stretch (lso 16 p.toInt (valF64 d.offset) (valF64 d.scale))
            d.black d.white d.tmin d.tmax d.drange) ∧
      ∀ a : Addr, (∀ k : Nat, k < 2 * d.size.toNat → a ≠ d.dst + BitVec.ofNat 32 k) →
        readByte t.mem a = readByte s.mem a

/-- R177: the effect of a whole PVS32 command whose destination does not overlap its source. -/
def Obligations.WholePvs32Command : Prop :=
  ∀ (d : Operands) (s : State), Memory.wf s.mem → s.st = .idle → s.inbox = [.issue (encode (.pvs32 d))] →
    (∀ k : Nat, k < 4 * d.size.toNat → accessible s (d.src + BitVec.ofNat 32 k)) →
    (∀ k : Nat, k < 2 * d.size.toNat → accessible s (d.dst + BitVec.ofNat 32 k)) →
    (∀ k l : Nat, k < 4 * d.size.toNat → l < 2 * d.size.toNat →
      d.src + BitVec.ofNat 32 k ≠ d.dst + BitVec.ofNat 32 l) →
    ∃ t, Sys2Proof.core.run (d.size.toNat + 2) s = .next t ∧ t.st = .idle ∧ t.done = true ∧ t.idx = d.size ∧
      (∀ i : Nat, i < d.size.toNat →
        let sa := d.src + BitVec.ofNat 32 (4 * i)
        let da := d.dst + BitVec.ofNat 32 (2 * i)
        let raw : Word := readByte s.mem (sa + 3) ++ readByte s.mem (sa + 2) ++ readByte s.mem (sa + 1) ++
          readByte s.mem sa
        (readByte t.mem (da + 1) ++ readByte t.mem da : Half) =
          stretch (conv32 raw d.bpp d.tmax) d.black d.white d.tmin d.tmax d.drange) ∧
      ∀ a : Addr, (∀ k : Nat, k < 2 * d.size.toNat → a ≠ d.dst + BitVec.ofNat 32 k) →
        readByte t.mem a = readByte s.mem a

/-- R69 (a) and (b): PVS16 and PVS32 with `DST = SRC` work in place: every destination sample is the image of
the source sample at acceptance, though it is stored among the source samples, and every byte outside the
destination is unchanged. -/
def Obligations.InPlaceCommandsUseOriginalSamples : Prop :=
  ∀ (d : Operands) (s : State), Memory.wf s.mem → s.st = .idle → d.dst = d.src →
    (s.inbox = [.issue (encode (.pvs16 d))] → 2 * d.size.toNat ≤ 2 ^ 32 →
      (∀ k : Nat, k < 2 * d.size.toNat → accessible s (d.src + BitVec.ofNat 32 k)) →
      ∃ t, Sys2Proof.core.run (d.size.toNat + 2) s = .next t ∧ t.st = .idle ∧ t.done = true ∧
        (∀ i : Nat, i < d.size.toNat →
          let sa := d.src + BitVec.ofNat 32 (2 * i)
          let p : Half := readByte s.mem (sa + 1) ++ readByte s.mem sa
          (readByte t.mem (sa + 1) ++ readByte t.mem sa : Half) =
            stretch (lso 16 p.toInt (valF64 d.offset) (valF64 d.scale))
              d.black d.white d.tmin d.tmax d.drange) ∧
        ∀ a : Addr, (∀ k : Nat, k < 2 * d.size.toNat → a ≠ d.src + BitVec.ofNat 32 k) →
          readByte t.mem a = readByte s.mem a) ∧
    (s.inbox = [.issue (encode (.pvs32 d))] → 4 * d.size.toNat ≤ 2 ^ 32 →
      (∀ k : Nat, k < 4 * d.size.toNat → accessible s (d.src + BitVec.ofNat 32 k)) →
      ∃ t, Sys2Proof.core.run (d.size.toNat + 2) s = .next t ∧ t.st = .idle ∧ t.done = true ∧
        (∀ i : Nat, i < d.size.toNat →
          let sa := d.src + BitVec.ofNat 32 (4 * i)
          let da := d.src + BitVec.ofNat 32 (2 * i)
          let raw : Word := readByte s.mem (sa + 3) ++ readByte s.mem (sa + 2) ++ readByte s.mem (sa + 1) ++
            readByte s.mem sa
          (readByte t.mem (da + 1) ++ readByte t.mem da : Half) =
            stretch (conv32 raw d.bpp d.tmax) d.black d.white d.tmin d.tmax d.drange) ∧
        ∀ a : Addr, (∀ k : Nat, k < 2 * d.size.toNat → a ≠ d.src + BitVec.ofNat 32 k) →
          readByte t.mem a = readByte s.mem a)

/-- R226: a command of `SIZE = n` completes or faults after at most `n + 1` engine steps, whatever the
operands, on a platform without device memory; the host makes no move meanwhile. -/
def Obligations.CommandEndsWithinSizePlusOne : Prop :=
  ∀ s : State, s.Inv → s.st = .busy → s.inbox = [] → (∀ a : Addr, isDevice s a = false) →
    ∃ (k : Nat) (t : State), k ≤ s.desc.ops.size.toNat - s.idx.toNat + 1 ∧
      Sys2Proof.core.run k s = .next t ∧ t.st ≠ .busy ∧ (t.st = .idle → t.done = true) ∧
      (t.st = .halted → t.cause = .accessFault)

/-- R32: the outcome of a command is a function of the accepted descriptor, of memory at acceptance and of
the platform's map: two idle cores that agree on these, whatever their previous descriptor, index, `DONE`
and the host's earlier reads, agree on every spec-given piece of state after each number of steps. -/
def Obligations.OutcomeForgetsHistory : Prop :=
  ∀ (i : Instr) (s s' : State) (n : Nat), s.Inv → s'.Inv → s.st = .idle → s'.st = .idle →
    s.inbox = [.issue (encode i)] → s'.inbox = [.issue (encode i)] →
    s.mem = s'.mem → s.map = s'.map →
    ∀ t, Sys2Proof.core.run (n + 1) s = .next t →
      ∃ t', Sys2Proof.core.run (n + 1) s' = .next t' ∧ t.mem = t'.mem ∧ t.desc = t'.desc ∧ t.idx = t'.idx ∧
        t.st = t'.st ∧ t.done = t'.done ∧ t.cause = t'.cause ∧ t.faddr = t'.faddr
end

