-- ==== Sys2Proof/Laws/Memory.lean ====
section
/-! SUPPORT. The laws of memory: a read after a write, what a write leaves alone, the canonical form. -/

namespace Sys2Proof.Laws

open Sys2Proof Sys2Proof.Machine

/-! ### One byte -/

theorem memLookup_of_lt (m : Memory) (a : Nat) (h : ∀ c ∈ m, a < c.1) : memLookup m a = unlistedByte := by
  induction m with
  | nil => rfl
  | cons c m ih =>
    obtain ⟨k, u⟩ := c
    have hk : a < k := h (k, u) (by simp)
    simp only [memLookup, hk.ne', if_false]
    exact ih fun c hc => h c (by simp [hc])

theorem memLookup_memInsert_self (m : Memory) (a : Nat) (v : Byte)
    (h : m.Pairwise fun x y => x.1 < y.1) : memLookup (memInsert m a v) a = v := by
  induction m with
  | nil => by_cases hv : v = unlistedByte <;> simp [memInsert, memLookup, hv]
  | cons c m ih =>
    obtain ⟨k, u⟩ := c
    rw [List.pairwise_cons] at h
    rcases lt_trichotomy k a with hk | hk | hk
    · simp [memInsert, hk, memLookup, hk.ne, ih h.2]
    · subst hk
      by_cases hv : v = unlistedByte
      · simp [memInsert, hv, memLookup_of_lt m k h.1]
      · simp [memInsert, hv, memLookup]
    · have hlt : memLookup ((k, u) :: m) a = unlistedByte :=
        memLookup_of_lt _ _ fun c hc => by
          rcases List.mem_cons.1 hc with rfl | hc
          · exact hk
          · exact hk.trans (h.1 c hc)
      by_cases hv : v = unlistedByte
      · simp [memInsert, hk.not_gt, hk.ne', hv, hlt]
      · simp [memInsert, hk.not_gt, hk.ne', hv, memLookup]

theorem memLookup_memInsert_ne (m : Memory) {a b : Nat} (v : Byte) (hab : b ≠ a) :
    memLookup (memInsert m a v) b = memLookup m b := by
  induction m with
  | nil => by_cases hv : v = unlistedByte <;> simp [memInsert, memLookup, hv, hab.symm]
  | cons c m ih =>
    obtain ⟨k, u⟩ := c
    by_cases hk : k < a
    · simp [memInsert, hk, memLookup, ih]
    · by_cases hka : k = a <;> by_cases hv : v = unlistedByte <;>
        simp [memInsert, hka, hk, hv, memLookup, hab.symm]

/-- A read of the byte written gives the value written. -/
@[simp] theorem readByte_writeByte_self {m : Memory} (h : Memory.wf m) (a : Addr) (v : Byte) :
    readByte (writeByte m a v) a = v := memLookup_memInsert_self m a.toNat v h.1

/-- A write leaves every other byte alone. -/
theorem readByte_writeByte_ne (m : Memory) {a b : Addr} (v : Byte) (h : b ≠ a) :
    readByte (writeByte m a v) b = readByte m b :=
  memLookup_memInsert_ne m v (fun e => h (BitVec.eq_of_toNat_eq e))

/-! ### The canonical form -/

theorem mem_memInsert {m : Memory} {a : Nat} {v : Byte} {c : Host.Cell} (h : c ∈ memInsert m a v) :
    c ∈ m ∨ (c = (a, v) ∧ v ≠ unlistedByte) := by
  induction m with
  | nil => by_cases hv : v = unlistedByte <;> simp_all [memInsert]
  | cons d m ih =>
    obtain ⟨k, u⟩ := d
    by_cases hk : k < a
    · simp only [memInsert, hk, if_true, List.mem_cons] at h
      rcases h with rfl | h
      · simp
      · rcases ih h with h | h
        · simp [h]
        · exact .inr h
    · by_cases hka : k = a <;> by_cases hv : v = unlistedByte <;>
        simp_all [memInsert] <;> tauto

theorem memInsert_pairwise (m : Memory) (a : Nat) (v : Byte) (h : m.Pairwise fun x y => x.1 < y.1) :
    (memInsert m a v).Pairwise fun x y => x.1 < y.1 := by
  induction m with
  | nil => by_cases hv : v = unlistedByte <;> simp [memInsert, hv]
  | cons d m ih =>
    obtain ⟨k, u⟩ := d
    rw [List.pairwise_cons] at h
    by_cases hk : k < a
    · simp only [memInsert, hk, if_true, List.pairwise_cons]
      refine ⟨fun c hc => ?_, ih h.2⟩
      rcases mem_memInsert hc with hc | ⟨rfl, -⟩
      · exact h.1 c hc
      · exact hk
    · by_cases hka : k = a
      · subst hka
        by_cases hv : v = unlistedByte <;> simp [memInsert, hv, h.2]
        exact fun x y hxy => h.1 _ hxy
      · have hak : a < k := lt_of_le_of_ne (not_lt.1 hk) (Ne.symm hka)
        by_cases hv : v = unlistedByte <;> simp only [memInsert, hk, hka, hv, if_false, if_true]
        · exact List.pairwise_cons.2 h
        · refine List.pairwise_cons.2 ⟨fun c hc => ?_, List.pairwise_cons.2 h⟩
          rcases List.mem_cons.1 hc with rfl | hc
          · exact hak
          · exact hak.trans (h.1 c hc)

/-- A write keeps the canonical form. -/
theorem writeByte_wf {m : Memory} (h : Memory.wf m) (a : Addr) (v : Byte) : Memory.wf (writeByte m a v) := by
  refine ⟨memInsert_pairwise m a.toNat v h.1, fun c hc => ?_⟩
  rcases mem_memInsert hc with hc | ⟨rfl, hv⟩
  · exact h.2 c hc
  · exact ⟨a.isLt, hv⟩

/-- The memory after power-on is in canonical form. -/
theorem reset_mem_wf : Memory.wf State.reset.mem := by decide

/-- Two memories in canonical form that read alike are equal: the form is canonical. -/
theorem memory_ext {m n : Memory} (hm : Memory.wf m) (hn : Memory.wf n)
    (h : ∀ a : Addr, readByte m a = readByte n a) : m = n := by
  have tail_wf : ∀ {c : Host.Cell} {l : Memory}, Memory.wf (c :: l) → Memory.wf l := fun w =>
    ⟨(List.pairwise_cons.1 w.1).2, fun c hc => w.2 c (by simp [hc])⟩
  have key : ∀ {m n : Memory}, Memory.wf m → Memory.wf n →
      (∀ a : Nat, a < 2 ^ 32 → memLookup m a = memLookup n a) → m = n := by
    intro m
    induction m with
    | nil =>
      intro n _ hn h
      cases n with
      | nil => rfl
      | cons c n =>
        have hc := hn.2 c (by simp)
        exact absurd (by simpa [memLookup] using (h c.1 hc.1).symm) hc.2
    | cons c m ih =>
      intro n hm hn h
      have hc := hm.2 c (by simp)
      have hcm := (List.pairwise_cons.1 hm.1).1
      cases n with
      | nil => exact absurd (by simpa [memLookup] using h c.1 hc.1) hc.2
      | cons d n =>
        have hd := hn.2 d (by simp)
        have hdn := (List.pairwise_cons.1 hn.1).1
        have hkey : c.1 = d.1 := by
          rcases lt_trichotomy c.1 d.1 with hlt | heq | hlt
          · have hz : memLookup (d :: n) c.1 = unlistedByte := memLookup_of_lt _ _ fun e he => by
              rcases List.mem_cons.1 he with rfl | he
              · exact hlt
              · exact hlt.trans (hdn e he)
            have h2 := h c.1 hc.1
            rw [hz] at h2
            exact absurd (by simpa [memLookup] using h2) hc.2
          · exact heq
          · have hz : memLookup (c :: m) d.1 = unlistedByte := memLookup_of_lt _ _ fun e he => by
              rcases List.mem_cons.1 he with rfl | he
              · exact hlt
              · exact hlt.trans (hcm e he)
            have h2 := h d.1 hd.1
            rw [hz] at h2
            exact absurd (by simpa [memLookup] using h2.symm) hd.2
        have hval : c.2 = d.2 := by simpa [memLookup, hkey] using h c.1 hc.1
        obtain ⟨ck, cv⟩ := c
        obtain ⟨dk, dv⟩ := d
        obtain rfl : ck = dk := hkey
        obtain rfl : cv = dv := hval
        congr 1
        refine ih (tail_wf hm) (tail_wf hn) fun a ha => ?_
        by_cases hak : ck = a
        · subst hak
          rw [memLookup_of_lt m _ hcm, memLookup_of_lt n _ hdn]
        · simpa [memLookup, hak] using h a ha
  refine key hm hn fun a ha => ?_
  have := h (BitVec.ofNat 32 a)
  simpa only [readByte, BitVec.toNat_ofNat, Nat.mod_eq_of_lt ha] using this

/-! ### Several bytes -/

@[simp] theorem writeCells_nil (m : Memory) : writeCells m [] = m := rfl

@[simp] theorem writeCells_cons (m : Memory) (c : Addr × Byte) (l : List (Addr × Byte)) :
    writeCells m (c :: l) = writeCells (writeByte m c.1 c.2) l := rfl

/-- Storing bytes keeps the canonical form. -/
theorem writeCells_wf {m : Memory} (h : Memory.wf m) (l : List (Addr × Byte)) : Memory.wf (writeCells m l) := by
  induction l generalizing m with
  | nil => exact h
  | cons c l ih => exact ih (writeByte_wf h c.1 c.2)

/-- Storing bytes leaves every address that is not stored to alone. -/
theorem readByte_writeCells_ne (m : Memory) (l : List (Addr × Byte)) {b : Addr}
    (h : b ∉ l.map Prod.fst) : readByte (writeCells m l) b = readByte m b := by
  induction l generalizing m with
  | nil => rfl
  | cons c l ih =>
    simp only [List.map_cons, List.mem_cons, not_or] at h
    rw [writeCells_cons, ih _ h.2, readByte_writeByte_ne _ _ h.1]

/-- Storing one byte for each of some different addresses: each reads as what was stored. -/
theorem readByte_writeCells_mem {m : Memory} (hm : Memory.wf m) {l : List (Addr × Byte)}
    (hl : (l.map Prod.fst).Nodup) {c : Addr × Byte} (hc : c ∈ l) : readByte (writeCells m l) c.1 = c.2 := by
  induction l generalizing m with
  | nil => simp at hc
  | cons d l ih =>
    simp only [List.map_cons, List.nodup_cons] at hl
    rcases List.mem_cons.1 hc with rfl | hc
    · rw [writeCells_cons, readByte_writeCells_ne _ _ hl.1, readByte_writeByte_self hm]
    · exact ih (writeByte_wf hm d.1 d.2) hl.2 hc

/-- The addresses of a store are those the access checks (R55). -/
@[simp] theorem cellsLE_addrs {w : Nat} (a : Addr) (v : BitVec w) :
    (cellsLE a v).map Prod.fst = byteAddrs a (w / 8) := by
  simp [cellsLE, byteAddrs, Function.comp_def]

theorem cellsLE_8 (a : Addr) (v : Byte) : cellsLE a v = [(a, v)] := by
  simp [cellsLE, List.range_succ]

theorem cellsLE_16 (a : Addr) (v : Half) :
    cellsLE a v = [(a, v.extractLsb' 0 8), (a + 1, v.extractLsb' 8 8)] := by
  simp [cellsLE, List.range_succ]

theorem byteAddrs_one (a : Addr) : byteAddrs a 1 = [a] := by simp [byteAddrs]

theorem byteAddrs_two (a : Addr) : byteAddrs a 2 = [a, a + 1] := by simp [byteAddrs, List.range_succ]

theorem byteAddrs_four (a : Addr) : byteAddrs a 4 = [a, a + 1, a + 2, a + 3] := by
  simp [byteAddrs, List.range_succ]

theorem addr_ne_succ (a : Addr) : a ≠ a + 1 := by
  intro h
  have := congrArg (fun x => x - a) h
  simp at this

theorem readLE_one (m : Memory) (a : Addr) : readLE m a 1 = (readByte m a).toNat := by simp [readLE]

end Sys2Proof.Laws
end

