-- ==== Sys2Proof/Laws/State.lean ====
section
/-! SUPPORT. One lemma per field per update of State: what the update leaves in the field. -/

namespace Sys2Proof.Laws

open Sys2Proof Sys2Proof.Machine

/-! ### `accept c s` -/

@[simp] theorem accept_mem (c : Descriptor) (s : State) : (accept c s).mem = s.mem := rfl
@[simp] theorem accept_desc (c : Descriptor) (s : State) : (accept c s).desc = c := rfl
@[simp] theorem accept_idx (c : Descriptor) (s : State) : (accept c s).idx = 0 := rfl
@[simp] theorem accept_st (c : Descriptor) (s : State) : (accept c s).st = .busy := rfl
@[simp] theorem accept_done (c : Descriptor) (s : State) : (accept c s).done = false := rfl
@[simp] theorem accept_cause (c : Descriptor) (s : State) : (accept c s).cause = s.cause := rfl
@[simp] theorem accept_faddr (c : Descriptor) (s : State) : (accept c s).faddr = s.faddr := rfl
@[simp] theorem accept_map (c : Descriptor) (s : State) : (accept c s).map = s.map := rfl
@[simp] theorem accept_inbox (c : Descriptor) (s : State) : (accept c s).inbox = s.inbox := rfl
@[simp] theorem accept_bus (c : Descriptor) (s : State) : (accept c s).bus = s.bus := rfl
@[simp] theorem accept_atAccept (c : Descriptor) (s : State) : (accept c s).atAccept = s.mem := rfl
@[simp] theorem accept_hostWrote (c : Descriptor) (s : State) : (accept c s).hostWrote = [] := rfl
@[simp] theorem accept_fresh (c : Descriptor) (s : State) : (accept c s).fresh = s.fresh := rfl

/-! ### `complete s` -/

@[simp] theorem complete_mem (s : State) : (complete s).mem = s.mem := rfl
@[simp] theorem complete_desc (s : State) : (complete s).desc = s.desc := rfl
@[simp] theorem complete_idx (s : State) : (complete s).idx = s.idx := rfl
@[simp] theorem complete_st (s : State) : (complete s).st = .idle := rfl
@[simp] theorem complete_done (s : State) : (complete s).done = true := rfl
@[simp] theorem complete_cause (s : State) : (complete s).cause = s.cause := rfl
@[simp] theorem complete_faddr (s : State) : (complete s).faddr = s.faddr := rfl
@[simp] theorem complete_map (s : State) : (complete s).map = s.map := rfl
@[simp] theorem complete_inbox (s : State) : (complete s).inbox = s.inbox := rfl
@[simp] theorem complete_bus (s : State) : (complete s).bus = s.bus := rfl
@[simp] theorem complete_atAccept (s : State) : (complete s).atAccept = s.atAccept := rfl
@[simp] theorem complete_hostWrote (s : State) : (complete s).hostWrote = s.hostWrote := rfl
@[simp] theorem complete_fresh (s : State) : (complete s).fresh = s.fresh := rfl

/-! ### `raiseFault .illegalDescriptor s` -/

@[simp] theorem raiseIllegal_mem (s : State) : (raiseFault .illegalDescriptor s).mem = s.mem := rfl
@[simp] theorem raiseIllegal_desc (s : State) : (raiseFault .illegalDescriptor s).desc = s.desc := rfl
@[simp] theorem raiseIllegal_idx (s : State) : (raiseFault .illegalDescriptor s).idx = s.idx := rfl
@[simp] theorem raiseIllegal_st (s : State) : (raiseFault .illegalDescriptor s).st = .halted := rfl
@[simp] theorem raiseIllegal_done (s : State) : (raiseFault .illegalDescriptor s).done = false := rfl
@[simp] theorem raiseIllegal_cause (s : State) : (raiseFault .illegalDescriptor s).cause = .illegalDescriptor := rfl
@[simp] theorem raiseIllegal_faddr (s : State) : (raiseFault .illegalDescriptor s).faddr = s.faddr := rfl
@[simp] theorem raiseIllegal_map (s : State) : (raiseFault .illegalDescriptor s).map = s.map := rfl
@[simp] theorem raiseIllegal_inbox (s : State) : (raiseFault .illegalDescriptor s).inbox = s.inbox := rfl
@[simp] theorem raiseIllegal_bus (s : State) : (raiseFault .illegalDescriptor s).bus = s.bus := rfl
@[simp] theorem raiseIllegal_atAccept (s : State) : (raiseFault .illegalDescriptor s).atAccept = s.atAccept := rfl
@[simp] theorem raiseIllegal_hostWrote (s : State) : (raiseFault .illegalDescriptor s).hostWrote = s.hostWrote := rfl
@[simp] theorem raiseIllegal_fresh (s : State) : (raiseFault .illegalDescriptor s).fresh = s.fresh := rfl

/-! ### `raiseFault (.accessFault a) s` -/

@[simp] theorem raiseAccess_mem (a : Addr) (s : State) : (raiseFault (.accessFault a) s).mem = s.mem := rfl
@[simp] theorem raiseAccess_desc (a : Addr) (s : State) : (raiseFault (.accessFault a) s).desc = s.desc := rfl
@[simp] theorem raiseAccess_idx (a : Addr) (s : State) : (raiseFault (.accessFault a) s).idx = s.idx := rfl
@[simp] theorem raiseAccess_st (a : Addr) (s : State) : (raiseFault (.accessFault a) s).st = .halted := rfl
@[simp] theorem raiseAccess_done (a : Addr) (s : State) : (raiseFault (.accessFault a) s).done = false := rfl
@[simp] theorem raiseAccess_cause (a : Addr) (s : State) : (raiseFault (.accessFault a) s).cause = .accessFault := rfl
@[simp] theorem raiseAccess_faddr (a : Addr) (s : State) : (raiseFault (.accessFault a) s).faddr = a := rfl
@[simp] theorem raiseAccess_map (a : Addr) (s : State) : (raiseFault (.accessFault a) s).map = s.map := rfl
@[simp] theorem raiseAccess_inbox (a : Addr) (s : State) : (raiseFault (.accessFault a) s).inbox = s.inbox := rfl
@[simp] theorem raiseAccess_bus (a : Addr) (s : State) : (raiseFault (.accessFault a) s).bus = s.bus := rfl
@[simp] theorem raiseAccess_atAccept (a : Addr) (s : State) : (raiseFault (.accessFault a) s).atAccept = s.atAccept := rfl
@[simp] theorem raiseAccess_hostWrote (a : Addr) (s : State) : (raiseFault (.accessFault a) s).hostWrote = s.hostWrote := rfl
@[simp] theorem raiseAccess_fresh (a : Addr) (s : State) : (raiseFault (.accessFault a) s).fresh = s.fresh := rfl

/-! ### `resetCore s` -/

@[simp] theorem resetCore_mem (s : State) : (resetCore s).mem = s.mem := rfl
@[simp] theorem resetCore_desc (s : State) : (resetCore s).desc = rawDescriptor (Config.freeDescriptor s.fresh) := rfl
@[simp] theorem resetCore_idx (s : State) : (resetCore s).idx = 0 := rfl
@[simp] theorem resetCore_st (s : State) : (resetCore s).st = .idle := rfl
@[simp] theorem resetCore_done (s : State) : (resetCore s).done = false := rfl
@[simp] theorem resetCore_cause (s : State) : (resetCore s).cause = .none := rfl
@[simp] theorem resetCore_faddr (s : State) : (resetCore s).faddr = 0 := rfl
@[simp] theorem resetCore_map (s : State) : (resetCore s).map = s.map := rfl
@[simp] theorem resetCore_inbox (s : State) : (resetCore s).inbox = s.inbox := rfl
@[simp] theorem resetCore_bus (s : State) : (resetCore s).bus = s.bus := rfl
@[simp] theorem resetCore_atAccept (s : State) : (resetCore s).atAccept = s.atAccept := rfl
@[simp] theorem resetCore_hostWrote (s : State) : (resetCore s).hostWrote = s.hostWrote := rfl
@[simp] theorem resetCore_fresh (s : State) : (resetCore s).fresh = s.fresh + 1 := rfl

/-! ### `applySample cells s` -/

@[simp] theorem applySample_mem (cells : List (Addr × Byte)) (s : State) : (applySample cells s).mem = writeCells s.mem cells := rfl
@[simp] theorem applySample_desc (cells : List (Addr × Byte)) (s : State) : (applySample cells s).desc = s.desc := rfl
@[simp] theorem applySample_idx (cells : List (Addr × Byte)) (s : State) : (applySample cells s).idx = s.idx := rfl
@[simp] theorem applySample_st (cells : List (Addr × Byte)) (s : State) : (applySample cells s).st = s.st := rfl
@[simp] theorem applySample_done (cells : List (Addr × Byte)) (s : State) : (applySample cells s).done = s.done := rfl
@[simp] theorem applySample_cause (cells : List (Addr × Byte)) (s : State) : (applySample cells s).cause = s.cause := rfl
@[simp] theorem applySample_faddr (cells : List (Addr × Byte)) (s : State) : (applySample cells s).faddr = s.faddr := rfl
@[simp] theorem applySample_map (cells : List (Addr × Byte)) (s : State) : (applySample cells s).map = s.map := rfl
@[simp] theorem applySample_inbox (cells : List (Addr × Byte)) (s : State) : (applySample cells s).inbox = s.inbox := rfl
@[simp] theorem applySample_bus (cells : List (Addr × Byte)) (s : State) : (applySample cells s).bus = s.bus := rfl
@[simp] theorem applySample_atAccept (cells : List (Addr × Byte)) (s : State) : (applySample cells s).atAccept = s.atAccept := rfl
@[simp] theorem applySample_hostWrote (cells : List (Addr × Byte)) (s : State) : (applySample cells s).hostWrote = s.hostWrote := rfl
@[simp] theorem applySample_fresh (cells : List (Addr × Byte)) (s : State) : (applySample cells s).fresh = s.fresh := rfl

/-! ### `settleBytes l s` -/

@[simp] theorem settleBytes_desc (l : List Addr) (s : State) : (settleBytes l s).desc = s.desc := rfl
@[simp] theorem settleBytes_idx (l : List Addr) (s : State) : (settleBytes l s).idx = s.idx := rfl
@[simp] theorem settleBytes_st (l : List Addr) (s : State) : (settleBytes l s).st = s.st := rfl
@[simp] theorem settleBytes_done (l : List Addr) (s : State) : (settleBytes l s).done = s.done := rfl
@[simp] theorem settleBytes_cause (l : List Addr) (s : State) : (settleBytes l s).cause = s.cause := rfl
@[simp] theorem settleBytes_faddr (l : List Addr) (s : State) : (settleBytes l s).faddr = s.faddr := rfl
@[simp] theorem settleBytes_map (l : List Addr) (s : State) : (settleBytes l s).map = s.map := rfl
@[simp] theorem settleBytes_inbox (l : List Addr) (s : State) : (settleBytes l s).inbox = s.inbox := rfl
@[simp] theorem settleBytes_bus (l : List Addr) (s : State) : (settleBytes l s).bus = s.bus := rfl
@[simp] theorem settleBytes_atAccept (l : List Addr) (s : State) : (settleBytes l s).atAccept = s.atAccept := rfl
@[simp] theorem settleBytes_hostWrote (l : List Addr) (s : State) : (settleBytes l s).hostWrote = [] := rfl

/-! ### `settle s` -/

@[simp] theorem settle_desc (s : State) : (settle s).desc = s.desc := by
  unfold settle; split
  · rfl
  · split <;> rfl
@[simp] theorem settle_idx (s : State) : (settle s).idx = s.idx := by
  unfold settle; split
  · rfl
  · split <;> rfl
@[simp] theorem settle_st (s : State) : (settle s).st = s.st := by
  unfold settle; split
  · rfl
  · split <;> rfl
@[simp] theorem settle_done (s : State) : (settle s).done = s.done := by
  unfold settle; split
  · rfl
  · split <;> rfl
@[simp] theorem settle_cause (s : State) : (settle s).cause = s.cause := by
  unfold settle; split
  · rfl
  · split <;> rfl
@[simp] theorem settle_faddr (s : State) : (settle s).faddr = s.faddr := by
  unfold settle; split
  · rfl
  · split <;> rfl
@[simp] theorem settle_map (s : State) : (settle s).map = s.map := by
  unfold settle; split
  · rfl
  · split <;> rfl
@[simp] theorem settle_inbox (s : State) : (settle s).inbox = s.inbox := by
  unfold settle; split
  · rfl
  · split <;> rfl
@[simp] theorem settle_bus (s : State) : (settle s).bus = s.bus := by
  unfold settle; split
  · rfl
  · split <;> rfl
@[simp] theorem settle_atAccept (s : State) : (settle s).atAccept = s.atAccept := by
  unfold settle; split
  · rfl
  · split <;> rfl

/-! ### `hostReadReg r s` -/

@[simp] theorem hostReadReg_mem (r : StatusReg) (s : State) : (hostReadReg r s).mem = s.mem := rfl
@[simp] theorem hostReadReg_desc (r : StatusReg) (s : State) : (hostReadReg r s).desc = s.desc := rfl
@[simp] theorem hostReadReg_idx (r : StatusReg) (s : State) : (hostReadReg r s).idx = s.idx := rfl
@[simp] theorem hostReadReg_st (r : StatusReg) (s : State) : (hostReadReg r s).st = s.st := rfl
@[simp] theorem hostReadReg_done (r : StatusReg) (s : State) : (hostReadReg r s).done = s.done := rfl
@[simp] theorem hostReadReg_cause (r : StatusReg) (s : State) : (hostReadReg r s).cause = s.cause := rfl
@[simp] theorem hostReadReg_faddr (r : StatusReg) (s : State) : (hostReadReg r s).faddr = s.faddr := rfl
@[simp] theorem hostReadReg_map (r : StatusReg) (s : State) : (hostReadReg r s).map = s.map := rfl
@[simp] theorem hostReadReg_inbox (r : StatusReg) (s : State) : (hostReadReg r s).inbox = s.inbox := rfl
@[simp] theorem hostReadReg_bus (r : StatusReg) (s : State) : (hostReadReg r s).bus = hostRegValue r s := rfl
@[simp] theorem hostReadReg_atAccept (r : StatusReg) (s : State) : (hostReadReg r s).atAccept = s.atAccept := rfl
@[simp] theorem hostReadReg_hostWrote (r : StatusReg) (s : State) : (hostReadReg r s).hostWrote = s.hostWrote := rfl
@[simp] theorem hostReadReg_fresh (r : StatusReg) (s : State) : (hostReadReg r s).fresh = s.fresh + 1 := rfl

/-! ### `s.withFetchWord nbits w` -/

@[simp] theorem withFetchWord_mem (s : State) (nbits w : Nat) : (s.withFetchWord nbits w).mem = s.mem := rfl
@[simp] theorem withFetchWord_desc (s : State) (nbits w : Nat) : (s.withFetchWord nbits w).desc = s.desc := rfl
@[simp] theorem withFetchWord_idx (s : State) (nbits w : Nat) : (s.withFetchWord nbits w).idx = s.idx := rfl
@[simp] theorem withFetchWord_st (s : State) (nbits w : Nat) : (s.withFetchWord nbits w).st = .idle := rfl
@[simp] theorem withFetchWord_done (s : State) (nbits w : Nat) : (s.withFetchWord nbits w).done = s.done := rfl
@[simp] theorem withFetchWord_cause (s : State) (nbits w : Nat) : (s.withFetchWord nbits w).cause = s.cause := rfl
@[simp] theorem withFetchWord_faddr (s : State) (nbits w : Nat) : (s.withFetchWord nbits w).faddr = s.faddr := rfl
@[simp] theorem withFetchWord_map (s : State) (nbits w : Nat) : (s.withFetchWord nbits w).map = s.map := rfl
@[simp] theorem withFetchWord_inbox (s : State) (nbits w : Nat) : (s.withFetchWord nbits w).inbox = .issue (BitVec.ofNat 384 (w % 2 ^ nbits)) :: s.inbox := rfl
@[simp] theorem withFetchWord_bus (s : State) (nbits w : Nat) : (s.withFetchWord nbits w).bus = s.bus := rfl
@[simp] theorem withFetchWord_atAccept (s : State) (nbits w : Nat) : (s.withFetchWord nbits w).atAccept = s.atAccept := rfl
@[simp] theorem withFetchWord_hostWrote (s : State) (nbits w : Nat) : (s.withFetchWord nbits w).hostWrote = s.hostWrote := rfl
@[simp] theorem withFetchWord_fresh (s : State) (nbits w : Nat) : (s.withFetchWord nbits w).fresh = s.fresh := rfl

end Sys2Proof.Laws
end

