-- ==== Sys2Proof/Laws/Ops.lean ====
section
/-! SUPPORT. For each shared operation, once, everything it can do. -/

namespace Sys2Proof.Laws

open Sys2Proof Sys2Proof.Machine

/-! ### The command in a descriptor -/

@[simp] theorem descriptorInstr_instrDescriptor (i : Instr) : descriptorInstr (instrDescriptor i) = some i := by
  cases i <;> rfl

/-- A descriptor selects an operation iff it is that operation's descriptor. -/
theorem descriptorInstr_eq_some {d : Descriptor} {i : Instr} :
    descriptorInstr d = some i ↔ d = instrDescriptor i := by
  constructor
  · intro h
    obtain ⟨opc, ops⟩ := d
    unfold descriptorInstr at h
    split at h
    · cases h; simp_all [instrDescriptor, instrOpc, Instr.ops]
    · split at h
      · cases h; simp_all [instrDescriptor, instrOpc, Instr.ops]
      · split at h
        · cases h; simp_all [instrDescriptor, instrOpc, Instr.ops]
        · cases h
  · rintro rfl; simp

/-- A descriptor selects an operation iff its `OPC` is not 00 (R82, R86). -/
theorem descriptorInstr_eq_none {d : Descriptor} : descriptorInstr d = none ↔ d.opc = 0 := by
  obtain ⟨opc, ops⟩ := d
  have h : ∀ o : BitVec 2, o = 0 ∨ o = 1 ∨ o = 2 ∨ o = 3 := by decide
  rcases h opc with rfl | rfl | rfl | rfl <;> simp [descriptorInstr]

@[simp] theorem instrDescriptor_ops (i : Instr) : (instrDescriptor i).ops = i.ops := rfl

@[simp] theorem instrDescriptor_wellFormed (i : Instr) : (instrDescriptor i).wellFormed := by
  cases i <;> simp [Descriptor.wellFormed, instrDescriptor, instrOpc]

/-! ### Accesses -/

/-- An access succeeds iff every byte is mapped ordinary memory. -/
theorem checkAccess_ok {s : State} {a : Addr} {n : Nat} :
    checkAccess s a n = .ok () ↔
      ∀ b ∈ byteAddrs a n, mapped s b = true ∧ isDevice s b = false := by
  unfold checkAccess
  constructor
  · intro h
    split at h
    · cases h
    · rename_i h1
      split at h
      · cases h
      · rename_i h2
        intro b hb
        have e1 := List.find?_eq_none.1 h1 b hb
        have e2 := List.find?_eq_none.1 h2 b hb
        simp_all
  · intro h
    have h1 : (byteAddrs a n).find? (fun b => !mapped s b) = none :=
      List.find?_eq_none.2 fun b hb => by simp [(h b hb).1]
    have h2 : (byteAddrs a n).find? (isDevice s) = none :=
      List.find?_eq_none.2 fun b hb => by simp [(h b hb).2]
    simp only [h1, h2]

/-- An access faults at the first unmapped byte, in the order `k = 0, 1, ...` (R54). -/
theorem checkAccess_unmapped {s : State} {a b : Addr} {n : Nat} :
    checkAccess s a n = .unmapped b ↔ (byteAddrs a n).find? (fun b => !mapped s b) = some b := by
  unfold checkAccess
  constructor
  · intro h
    split at h
    · rename_i h1; cases h; exact h1
    · split at h <;> cases h
  · intro h; simp only [h]

/-- An access that stops at device memory has every byte mapped (R51). -/
theorem checkAccess_device {s : State} {a b : Addr} {n : Nat} (h : checkAccess s a n = .device b) :
    (∀ b ∈ byteAddrs a n, mapped s b = true) ∧ b ∈ byteAddrs a n ∧ isDevice s b = true := by
  unfold checkAccess at h
  split at h
  · cases h
  · rename_i h1
    split at h
    · rename_i h2
      cases h
      exact ⟨fun c hc => by simpa using List.find?_eq_none.1 h1 c hc, List.mem_of_find?_eq_some h2, List.find?_some h2⟩
    · cases h

/-- Everything an access check can answer. -/
theorem checkAccess_cases (s : State) (a : Addr) (n : Nat) :
    (checkAccess s a n = .ok () ∧ ∀ b ∈ byteAddrs a n, mapped s b = true ∧ isDevice s b = false) ∨
    (∃ b, checkAccess s a n = .unmapped b ∧ b ∈ byteAddrs a n ∧ mapped s b = false) ∨
    (∃ b, checkAccess s a n = .device b ∧ b ∈ byteAddrs a n ∧ isDevice s b = true) := by
  cases h : checkAccess s a n with
  | ok u => exact .inl ⟨rfl, checkAccess_ok.1 h⟩
  | unmapped b =>
    have := checkAccess_unmapped.1 h
    refine .inr (.inl ⟨b, rfl, List.mem_of_find?_eq_some this, ?_⟩)
    simpa using List.find?_some this
  | device b => exact .inr (.inr ⟨b, rfl, (checkAccess_device h).2⟩)

/-! ### The element rules -/

/-- An element rule whose bytes are all accessible writes the number's image. -/
theorem element_of_accessible {w : Nat} {s : State} {sa da : Addr} {sn : Nat} (f : Nat → BitVec w)
    (hs : ∀ b ∈ byteAddrs sa sn, mapped s b = true ∧ isDevice s b = false)
    (hd : ∀ b ∈ byteAddrs da (w / 8), mapped s b = true ∧ isDevice s b = false) :
    element s sa sn da f = .ok (cellsLE da (f (readLE s.mem sa sn))) := by
  simp only [element, memRead, memWrite, Access.andThen, checkAccess_ok.2 hs, checkAccess_ok.2 hd]

/-- Everything an element rule can answer. -/
theorem element_cases {w : Nat} (s : State) (sa : Addr) (sn : Nat) (da : Addr) (f : Nat → BitVec w) :
    (∃ cells, element s sa sn da f = .ok cells ∧ cells.map Prod.fst = byteAddrs da (w / 8) ∧
      (∀ b ∈ byteAddrs sa sn ++ byteAddrs da (w / 8), mapped s b = true ∧ isDevice s b = false)) ∨
    (∃ b, element s sa sn da f = .unmapped b ∧ b ∈ byteAddrs sa sn ++ byteAddrs da (w / 8) ∧
      mapped s b = false) ∨
    (∃ b, element s sa sn da f = .device b ∧ b ∈ byteAddrs sa sn ++ byteAddrs da (w / 8) ∧
      isDevice s b = true) := by
  rcases checkAccess_cases s sa sn with ⟨h1, hs⟩ | ⟨b, h1, hb, hm⟩ | ⟨b, h1, hb, hm⟩
  · rcases checkAccess_cases s da (w / 8) with ⟨h2, hd⟩ | ⟨b, h2, hb, hm⟩ | ⟨b, h2, hb, hm⟩
    · refine .inl ⟨_, element_of_accessible f hs hd, cellsLE_addrs _ _, fun b hb => ?_⟩
      rcases List.mem_append.1 hb with hb | hb
      · exact hs b hb
      · exact hd b hb
    · refine .inr (.inl ⟨b, ?_, List.mem_append.2 (.inr hb), hm⟩)
      simp only [element, memRead, memWrite, Access.andThen, h1, h2]
    · refine .inr (.inr ⟨b, ?_, List.mem_append.2 (.inr hb), hm⟩)
      simp only [element, memRead, memWrite, Access.andThen, h1, h2]
  · refine .inr (.inl ⟨b, ?_, List.mem_append.2 (.inl hb), hm⟩)
    simp only [element, memRead, Access.andThen, h1]
  · refine .inr (.inr ⟨b, ?_, List.mem_append.2 (.inl hb), hm⟩)
    simp only [element, memRead, Access.andThen, h1]

/-- The element rule of each operation is `element` at the bytes of sample `IDX`. -/
theorem instrElement_shape (i : Instr) (s : State) :
    ∃ (w : Nat) (f : Nat → BitVec w), w / 8 = dstElemSize i ∧
      instrElement i s =
        element s (effAddr i.ops.src s.idx (srcElemSize i)) (srcElemSize i)
          (effAddr (dstBase i) s.idx (dstElemSize i)) f := by
  cases i with
  | pvs8 d => exact ⟨8, _, rfl, rfl⟩
  | pvs16 d => exact ⟨16, _, rfl, rfl⟩
  | pvs32 d => exact ⟨16, _, rfl, rfl⟩

/-- Everything the element rule of a command can answer. -/
theorem instrElement_cases (i : Instr) (s : State) :
    (∃ cells, instrElement i s = .ok cells ∧ cells.map Prod.fst = destBytes i s.idx ∧
      ∀ b ∈ sourceBytes i s.idx ++ destBytes i s.idx, mapped s b = true ∧ isDevice s b = false) ∨
    (∃ b, instrElement i s = .unmapped b ∧ b ∈ sourceBytes i s.idx ++ destBytes i s.idx ∧
      mapped s b = false) ∨
    (∃ b, instrElement i s = .device b ∧ b ∈ sourceBytes i s.idx ++ destBytes i s.idx ∧
      isDevice s b = true) := by
  obtain ⟨w, f, hw, he⟩ := instrElement_shape i s
  simpa only [he, hw, sourceBytes, destBytes] using
    element_cases s (effAddr i.ops.src s.idx (srcElemSize i)) (srcElemSize i)
      (effAddr (dstBase i) s.idx (dstElemSize i)) f

/-! ### The step of a command -/

/-- Every operation's meaning is the shared step of a command with its own element rule. -/
theorem exec_eq_commandStep (i : Instr) (s : State) :
    exec i s = commandStep (instrDescriptor i) (instrElement i) s := by
  cases i <;> rfl

/-- Everything a command can do in a step that has a next state. -/
theorem exec_next_cases {i : Instr} {s t : State} (h : exec i s = .next t) :
    (s.st = .idle ∧ t = accept (instrDescriptor i) s) ∨
    (∃ cells, s.st = .busy ∧ s.desc = instrDescriptor i ∧ s.idx.toNat < i.ops.size.toNat ∧
      instrElement i s = .ok cells ∧ t = { applySample cells s with idx := s.idx + 1 }) ∨
    (∃ a, s.st = .busy ∧ s.desc = instrDescriptor i ∧ s.idx.toNat < i.ops.size.toNat ∧
      instrElement i s = .unmapped a ∧ t = raiseFault (.accessFault a) s) ∨
    (s.st = .busy ∧ s.desc = instrDescriptor i ∧ s.idx = i.ops.size ∧ t = complete s) ∨
    (s.st = .busy ∧ s.desc ≠ instrDescriptor i ∧ t = s) ∨
    (s.st = .halted ∧ t = s) := by
  rw [exec_eq_commandStep] at h
  unfold commandStep at h
  split at h
  · rename_i hst; cases h; exact .inl ⟨hst, rfl⟩
  · rename_i hst
    split at h
    · rename_i hd
      split at h
      · rename_i hi
        unfold sampleStep at h
        split at h
        · rename_i wr hw; cases h; exact .inr (.inl ⟨wr, hst, hd, hi, hw, rfl⟩)
        · rename_i a ha; cases h; exact .inr (.inr (.inl ⟨a, hst, hd, hi, ha, rfl⟩))
        · cases h
      · split at h
        · rename_i he; cases h; exact .inr (.inr (.inr (.inl ⟨hst, hd, he, rfl⟩)))
        · cases h
    · rename_i hd; cases h; exact .inr (.inr (.inr (.inr (.inl ⟨hst, hd, rfl⟩))))
  · rename_i hst; cases h; exact .inr (.inr (.inr (.inr (.inr ⟨hst, rfl⟩))))

/-- While a command is in execution its step leaves the account of the host's writes alone. -/
theorem exec_hostWrote {i : Instr} {s t : State} (h : exec i s = .next t) (hst : s.st ≠ .idle) :
    t.hostWrote = s.hostWrote := by
  rcases exec_next_cases h with ⟨h', -⟩ | ⟨_, -, -, -, -, rfl⟩ | ⟨_, -, -, -, -, rfl⟩ | ⟨-, -, -, rfl⟩ | ⟨-, -, rfl⟩ |
    ⟨-, rfl⟩
  · exact absurd h' hst
  all_goals rfl

/-! ### Contents that R64 leaves unspecified -/

/-- Without a write of the host no byte is unspecified. -/
@[simp] theorem unspecifiedBytes_nil (i : Instr) (n : Nat) : unspecifiedBytes i [] n = [] := by
  have h : taintedAfter i [] n = [] := by
    induction n with
    | zero => rfl
    | succ n ih => simp [taintedAfter, ih, sampleTouched]
  simp [unspecifiedBytes, h]

@[simp] theorem settle_of_busy {s : State} (h : s.st = .busy) : settle s = s := by simp [settle, h]

@[simp] theorem settle_of_nil {s : State} (h : s.hostWrote = []) : settle s = s := by simp [settle, h]

/-- Free bytes stand at the addresses they are asked for. -/
@[simp] theorem freeCells_addrs (n : Nat) (l : List Addr) : (freeCells n l).map Prod.fst = l := by
  induction l generalizing n with
  | nil => rfl
  | cons a l ih => simp [freeCells, ih]

/-- Storing free bytes: each address ends with a free byte of its own. -/
theorem readByte_writeCells_freeCells {m : Memory} (h : Memory.wf m) (n : Nat) (l : List Addr) :
    ∃ index : Addr → Nat, ∀ a ∈ l, n ≤ index a ∧ index a < n + l.length ∧
      readByte (writeCells m (freeCells n l)) a = Config.freeByte (index a) ∧ ∀ b ∈ l, index b = index a → b = a := by
  induction l generalizing m n with
  | nil => exact ⟨fun _ => 0, fun a ha => by cases ha⟩
  | cons x l ih =>
    obtain ⟨index, hi⟩ := ih (writeByte_wf h x (Config.freeByte n)) (n + 1)
    refine ⟨fun a => if a ∈ l then index a else n, fun a ha => ?_⟩
    simp only [freeCells, writeCells_cons, List.length_cons]
    by_cases hal : a ∈ l
    · obtain ⟨h1, h2, h3, h4⟩ := hi a hal
      rw [if_pos hal]
      refine ⟨by omega, by omega, h3, fun b hb e => ?_⟩
      by_cases hbl : b ∈ l
      · rw [if_pos hbl] at e; exact h4 b hbl e
      · rw [if_neg hbl] at e; omega
    · obtain rfl : a = x := (List.mem_cons.1 ha).resolve_right hal
      rw [if_neg hal]
      refine ⟨by omega, by omega, ?_, fun b hb e => ?_⟩
      · rw [readByte_writeCells_ne _ _ (by simpa using hal)]; exact readByte_writeByte_self h a _
      · by_cases hbl : b ∈ l
        · rw [if_pos hbl] at e; have := (hi b hbl).1; omega
        · exact (List.mem_cons.1 hb).resolve_right hbl

/-- Every byte that settling is given and that is ordinary memory ends with a free byte of its own. -/
theorem readByte_settleBytes_mem {s : State} (h : Memory.wf s.mem) (l : List Addr) :
    ∃ index : Addr → Nat, ∀ a ∈ l, mapped s a = true ∧ isDevice s a = false →
      s.fresh ≤ index a ∧ index a < (settleBytes l s).fresh ∧
        readByte (settleBytes l s).mem a = Config.freeByte (index a) ∧
        ∀ b ∈ l, mapped s b = true ∧ isDevice s b = false → index b = index a → b = a := by
  obtain ⟨index, hi⟩ :=
    readByte_writeCells_freeCells h s.fresh (l.filter fun a => mapped s a && !isDevice s a)
  have hf {a : Addr} (ha : a ∈ l) (hm : mapped s a = true ∧ isDevice s a = false) :
      a ∈ l.filter fun a => mapped s a && !isDevice s a := List.mem_filter.2 ⟨ha, by simp [hm.1, hm.2]⟩
  refine ⟨index, fun a ha hm => ?_⟩
  obtain ⟨h1, h2, h3, h4⟩ := hi a (hf ha hm)
  exact ⟨h1, h2, h3, fun b hb hbm => h4 b (hf hb hbm)⟩

/-- Settling leaves every byte alone that it is not given, or that is not ordinary memory. -/
theorem readByte_settleBytes_inaccessible {l : List Addr} {s : State} {a : Addr}
    (h : a ∈ l → ¬ (mapped s a = true ∧ isDevice s a = false)) :
    readByte (settleBytes l s).mem a = readByte s.mem a :=
  readByte_writeCells_ne _ _ (by
    rw [freeCells_addrs]
    intro hm
    obtain ⟨ha, hb⟩ := List.mem_filter.1 hm
    exact h ha (by simpa using hb))

/-- Settling changes no byte but those it is given. -/
theorem readByte_settleBytes {l : List Addr} {s : State} {a : Addr} (h : a ∉ l) :
    readByte (settleBytes l s).mem a = readByte s.mem a :=
  readByte_writeCells_ne _ _ (by simp [h])

/-- Everything settling can do: nothing, or bytes of memory that the host's writes left unspecified change and
the account of those writes is closed. -/
theorem settle_cases (s : State) :
    settle s = s ∨ ∃ i, s.st ≠ .busy ∧ s.desc = instrDescriptor i ∧
      settle s = settleBytes (unspecifiedBytes i s.hostWrote s.idx.toNat) s := by
  unfold settle
  split
  · exact .inl rfl
  · rename_i h
    split
    · rename_i i hi; exact .inr ⟨i, fun e => h (.inl e), descriptorInstr_eq_some.1 hi, rfl⟩
    · exact .inl rfl

/-- Settling keeps the memory's canonical form. -/
theorem settle_mem_wf {s : State} (h : Memory.wf s.mem) : Memory.wf (settle s).mem := by
  rcases settle_cases s with e | ⟨i, -, -, e⟩ <;> rw [e]
  · exact h
  · exact writeCells_wf h _

/-! ### Turns -/

/-- The engine's turn in `BUSY` is the step of the command in `DESC`, settled. -/
theorem engineTurn_busy {s : State} {i : Instr} (hst : s.st = .busy) (hd : s.desc = instrDescriptor i) :
    engineTurn s = settled (exec i s) := by
  simp only [engineTurn, hst, hd, descriptorInstr_instrDescriptor]

/-- A settled step with a next state. -/
theorem settled_next {o : Host.Outcome State Fault Refusal} {t : State} (h : settled o = .next t) :
    ∃ u, o = .next u ∧ t = settle u := by
  cases o with
  | next u => cases h; exact ⟨u, rfl, rfl⟩
  | fault f => cases h
  | refused r => cases h

/-- Without a write of the host the engine's turn is the step of the command in `DESC`. -/
theorem engineTurn_of_nil {s : State} {i : Instr} (hst : s.st = .busy) (hd : s.desc = instrDescriptor i)
    (hw : s.hostWrote = []) : engineTurn s = exec i s := by
  rw [engineTurn_busy hst hd]
  cases h : exec i s with
  | next t => simp [settled, settle_of_nil ((exec_hostWrote h (by simp [hst])).trans hw)]
  | fault f => rfl
  | refused r => rfl

/-- Everything an engine turn with a next state can do. -/
theorem engineTurn_next_cases {s t : State} (h : engineTurn s = .next t) :
    (s.st ≠ .busy ∧ t = s) ∨
    (∃ i u, s.st = .busy ∧ s.desc = instrDescriptor i ∧ exec i s = .next u ∧ t = settle u) := by
  unfold engineTurn at h
  split at h
  · rename_i hst
    split at h
    · rename_i i hi
      obtain ⟨u, hu, rfl⟩ := settled_next h
      exact .inr ⟨i, u, hst, descriptorInstr_eq_some.1 hi, hu, rfl⟩
    · cases h
  · rename_i hst; cases h; exact .inl ⟨hst, rfl⟩

/-- Everything a host reset with a next state can do: at most bytes of the destination sample in flight (R221)
and bytes that the host's writes left unspecified (R64) change before the reset. -/
theorem hostReset_next_cases {s t : State} (h : hostReset s = .next t) :
    ∃ l cells, t = resetCore (settleBytes l { s with mem := writeCells s.mem cells }) ∧
      ((cells = [] ∧ l = touchedAtReset s false) ∨
        ∃ i new, s.st = .busy ∧ s.desc = instrDescriptor i ∧ s.idx.toNat < i.ops.size.toNat ∧
          instrElement i s = .ok new ∧ cells = chosenCells (Config.freeChoice s.fresh) 0 new ∧
          l = touchedAtReset s (decide (new ≠ []))) := by
  unfold hostReset at h
  split at h
  · rename_i new hw
    cases h
    refine ⟨_, _, rfl, ?_⟩
    unfold inFlight at hw
    split at hw
    · rename_i i hi
      split at hw
      · rename_i hidx
        unfold currentInstr at hi
        split at hi
        · rename_i hst
          exact .inr ⟨i, new, hst, descriptorInstr_eq_some.1 hi, hidx, hw, rfl, rfl⟩
        · cases hi
      · cases hw; exact .inl ⟨rfl, by simp⟩
    · cases hw; exact .inl ⟨rfl, by simp⟩
  · cases h; exact ⟨_, [], rfl, .inl ⟨rfl, rfl⟩⟩
  · cases h

/-- Everything a host write with a next state can do. -/
theorem hostWrite_next_cases {s t : State} {a : Addr} {v : Byte} (h : hostWrite a v s = .next t) :
    mapped s a = true ∧ isDevice s a = false ∧ t = { s with
      mem := writeByte s.mem a v,
      hostWrote := if inCommand s a then a :: s.hostWrote else s.hostWrote } := by
  unfold hostWrite at h
  split at h
  · cases h
  · split at h
    · cases h
    · cases h; simp_all

/-- Everything a host read with a next state can do. -/
theorem hostRead_next_cases {s t : State} {a : Addr} (h : hostRead a s = .next t) :
    t = { s with bus := (hostByte a s).setWidth 32, fresh := s.fresh + 1 } := by
  unfold hostRead at h
  split at h
  · cases h
  · split at h
    · cases h
    · cases h; rfl

/-- Everything an issue with a next state can do. -/
theorem issueTurn_next_cases {raw : RawDesc} {s t : State} (h : issueTurn raw s = .next t) :
    (∃ i, decode raw = .ok i ∧ exec i s = .next t) ∨
    (∃ e, decode raw = .error e ∧ t = raiseFault .illegalDescriptor s) := by
  unfold issueTurn at h
  split at h
  · rename_i i hi; exact .inl ⟨i, hi, h⟩
  · rename_i e he; cases h; exact .inr ⟨e, he, rfl⟩

/-- Everything a step can be: the engine's turn, or the host's next move. -/
theorem step_cases (s : State) :
    (s.inbox = [] ∧ step s = engineTurn s) ∨
    (∃ raw rest, s.inbox = .issue raw :: rest ∧ s.st ≠ .idle ∧ step s = engineTurn s) ∨
    (∃ raw rest, s.inbox = .issue raw :: rest ∧ s.st = .idle ∧
      step s = issueTurn raw { s with inbox := rest }) ∨
    (∃ m rest, s.inbox = m :: rest ∧ (∀ raw, m ≠ .issue raw) ∧
      step s = hostTurn m { s with inbox := rest }) := by
  unfold step turn
  split
  · rename_i h; exact .inl ⟨h, rfl⟩
  · rename_i m rest h
    cases m with
    | issue raw =>
      by_cases hst : s.st = .idle
      · exact .inr (.inr (.inl ⟨raw, rest, h, hst, by simp [hostMustWait, hst, hostTurn]⟩))
      · exact .inr (.inl ⟨raw, rest, h, hst, by simp [hostMustWait, hst]⟩)
    | reset => exact .inr (.inr (.inr ⟨.reset, rest, h, by simp, by simp [hostMustWait]⟩))
    | poke a v => exact .inr (.inr (.inr ⟨.poke a v, rest, h, by simp, by simp [hostMustWait]⟩))
    | peek a => exact .inr (.inr (.inr ⟨.peek a, rest, h, by simp, by simp [hostMustWait]⟩))
    | readReg r => exact .inr (.inr (.inr ⟨.readReg r, rest, h, by simp, by simp [hostMustWait]⟩))
    | wait => exact .inr (.inr (.inr ⟨.wait, rest, h, by simp, by simp [hostMustWait]⟩))

end Sys2Proof.Laws
end

