-- ==== Sys2Proof/Laws/Command.lean ====
section
/-! SUPPORT. A command in execution: its step, and the bytes of its samples. -/

namespace Sys2Proof.Laws

open Sys2Proof Sys2Proof.Machine

/-- While a sample is left, the step is what the element rule answers (R37). -/
theorem exec_of_samplePending {i : Instr} {s : State} (h : samplePending i s) :
    exec i s = sampleStep (instrElement i s) s := by
  rw [exec_eq_commandStep]
  simp [commandStep, h.1.1, h.1.2, h.2]

@[simp] theorem sourceBytes_pvs8 (d : Operands) (k : Word) :
    sourceBytes (.pvs8 d) k = [effAddr d.src k 1] := byteAddrs_one _

@[simp] theorem destBytes_pvs8 (d : Operands) (k : Word) :
    destBytes (.pvs8 d) k = [effAddr d.src k 1] := byteAddrs_one _

@[simp] theorem sourceBytes_pvs16 (d : Operands) (k : Word) :
    sourceBytes (.pvs16 d) k = [effAddr d.src k 2, effAddr d.src k 2 + 1] := byteAddrs_two _

@[simp] theorem destBytes_pvs16 (d : Operands) (k : Word) :
    destBytes (.pvs16 d) k = [effAddr d.dst k 2, effAddr d.dst k 2 + 1] := byteAddrs_two _

@[simp] theorem sourceBytes_pvs32 (d : Operands) (k : Word) :
    sourceBytes (.pvs32 d) k =
      [effAddr d.src k 4, effAddr d.src k 4 + 1, effAddr d.src k 4 + 2, effAddr d.src k 4 + 3] :=
  byteAddrs_four _

@[simp] theorem destBytes_pvs32 (d : Operands) (k : Word) :
    destBytes (.pvs32 d) k = [effAddr d.dst k 2, effAddr d.dst k 2 + 1] := byteAddrs_two _

/-- The destination bytes of one sample are different addresses. -/
theorem destBytes_nodup (i : Instr) (k : Word) : (destBytes i k).Nodup := by
  cases i <;> simp

/-- An element rule whose source read meets an unmapped byte raises `AccessFault` there (R54). -/
theorem element_of_source_unmapped {w : Nat} {s : State} {sa da b : Addr} {sn : Nat} {f : Nat → BitVec w}
    (h : (byteAddrs sa sn).find? (fun b => !mapped s b) = some b) : element s sa sn da f = .unmapped b := by
  simp only [element, memRead, checkAccess_unmapped.2 h, Access.andThen]

/-- An element rule whose destination write meets an unmapped byte raises `AccessFault` there (R55). -/
theorem element_of_dest_unmapped {w : Nat} {s : State} {sa da b : Addr} {sn : Nat} {f : Nat → BitVec w}
    (hs : ∀ b ∈ byteAddrs sa sn, mapped s b = true ∧ isDevice s b = false)
    (h : (byteAddrs da (w / 8)).find? (fun b => !mapped s b) = some b) : element s sa sn da f = .unmapped b := by
  simp only [element, memRead, memWrite, checkAccess_ok.2 hs, checkAccess_unmapped.2 h, Access.andThen]

/-- An element rule that stops at device memory meets it, in its read or in its write (R51). -/
theorem meetsDevice_of_instrElement {i : Instr} {s : State} {b : Addr} (h : instrElement i s = .device b) :
    meetsDevice i s := by
  obtain ⟨w, f, hw, he⟩ := instrElement_shape i s
  rw [he] at h
  unfold element memRead memWrite at h
  rw [hw] at h
  cases h1 : checkAccess s (effAddr i.ops.src s.idx (srcElemSize i)) (srcElemSize i) with
  | ok _ =>
    cases h2 : checkAccess s (effAddr (dstBase i) s.idx (dstElemSize i)) (dstElemSize i) with
    | device c => exact .inr ⟨checkAccess_ok.1 h1, (checkAccess_device h2).1, c, (checkAccess_device h2).2⟩
    | _ => simp [h1, h2, Access.andThen] at h
  | device c => exact .inl ⟨(checkAccess_device h1).1, c, (checkAccess_device h1).2⟩
  | unmapped _ => simp [h1, Access.andThen] at h

/-- The element rule does not look at the host's moves, bus or acceptance copy. -/
theorem instrElement_congr (i : Instr) (s : State) (l : List HostMove) (b : Word) (m : Memory) :
    instrElement i { s with inbox := l, bus := b, atAccept := m } = instrElement i s := by
  cases i <;> rfl

/-! ### Contents that R64 leaves unspecified -/

/-- Byte `a` of a buffer is one of the bytes of the element that `sampleIndex` names (R53). -/
theorem mem_element_of_sampleIndex (base a : Addr) {es : Nat} (hes : 0 < es) :
    a ∈ byteAddrs (effAddr base (sampleIndex base es a) es) es := by
  simp only [byteAddrs, List.mem_map, List.mem_range]
  refine ⟨(a - base).toNat % es, Nat.mod_lt _ hes, BitVec.eq_of_toNat_eq ?_⟩
  have h := Nat.div_add_mod (a - base).toNat es
  have e : base + BitVec.ofNat 32 ((a - base).toNat / es) * BitVec.ofNat 32 es +
      BitVec.ofNat 32 ((a - base).toNat % es) = base + BitVec.ofNat 32 (a - base).toNat := by
    conv_rhs => rw [← h]
    rw [BitVec.add_assoc, BitVec.ofNat_add, BitVec.ofNat_mul, BitVec.mul_comm]
  have ha := a.isLt
  have hb := base.isLt
  simp only [effAddr, sampleIndex, e]
  simp
  omega

theorem srcElemSize_dvd (i : Instr) : srcElemSize i ∣ 2 ^ 32 := by cases i <;> norm_num [srcElemSize]

theorem dstElemSize_dvd (i : Instr) : dstElemSize i ∣ 2 ^ 32 := by cases i <;> norm_num [dstElemSize]

theorem srcElemSize_pos (i : Instr) : 0 < srcElemSize i := by cases i <;> simp [srcElemSize]

theorem dstElemSize_pos (i : Instr) : 0 < dstElemSize i := by cases i <;> simp [dstElemSize]

/-- A byte the command reads or writes is one of the bytes of its samples. -/
theorem mem_samplesAt_self {i : Instr} {a : Addr} (h : isSourceByte i a = true ∨ isDestByte i a = true) :
    a ∈ samplesAt i a := by
  rcases h with h | h
  · exact List.mem_append_left _ (by rw [if_pos h]; exact mem_element_of_sampleIndex _ _ (srcElemSize_pos i))
  · exact List.mem_append_right _ (by rw [if_pos h]; exact mem_element_of_sampleIndex _ _ (dstElemSize_pos i))

/-- A byte of element `k` has an index that names an element with the same bytes. -/
theorem element_of_sampleIndex {base a : Addr} {es k : Nat} (hes : es ∣ 2 ^ 32) (h0 : 0 < es)
    (h : a ∈ byteAddrs (effAddr base (BitVec.ofNat 32 k) es) es) :
    effAddr base (sampleIndex base es a) es = effAddr base (BitVec.ofNat 32 k) es ∧
      (a - base).toNat ≤ k * es + (es - 1) := by
  simp only [byteAddrs, List.mem_map, List.mem_range] at h
  obtain ⟨t, ht, rfl⟩ := h
  have e : effAddr base (BitVec.ofNat 32 k) es + BitVec.ofNat 32 t - base = BitVec.ofNat 32 (es * k + t) := by
    rw [BitVec.ofNat_add, BitVec.ofNat_mul, effAddr, BitVec.mul_comm (BitVec.ofNat 32 k)]
    abel
  obtain ⟨c, hc⟩ := hes
  have q : (es * k + t) % 2 ^ 32 / es = k % c := by
    rw [hc, Nat.mod_mul_right_div_self, Nat.mul_add_div h0, Nat.div_eq_of_lt ht, Nat.add_zero]
  refine ⟨?_, ?_⟩
  · rw [sampleIndex, e, BitVec.toNat_ofNat, q, effAddr, effAddr, ← BitVec.ofNat_mul, ← BitVec.ofNat_mul]
    congr 1
    apply BitVec.eq_of_toNat_eq
    rw [BitVec.toNat_ofNat, BitVec.toNat_ofNat, hc, mul_comm, mul_comm k, Nat.mul_mod_mul_left,
      Nat.mul_mod_mul_left, Nat.mod_mod]
  · rw [e, BitVec.toNat_ofNat]
    have := Nat.mod_le (es * k + t) (2 ^ 32)
    rw [mul_comm k]
    omega

/-- The bytes of the element that holds byte `a` of a buffer: `a` and `b` lie in one and the same element. -/
theorem mem_element_iff {base a b : Addr} {size : Word} {es : Nat} (hes : es ∣ 2 ^ 32) (h0 : 0 < es) :
    (inBuffer base size es a = true ∧ b ∈ byteAddrs (effAddr base (sampleIndex base es a) es) es) ↔
      ∃ k < size.toNat, a ∈ byteAddrs (effAddr base (BitVec.ofNat 32 k) es) es ∧
        b ∈ byteAddrs (effAddr base (BitVec.ofNat 32 k) es) es := by
  constructor
  · rintro ⟨ha, hb⟩
    refine ⟨(a - base).toNat / es, ?_, mem_element_of_sampleIndex base a h0, hb⟩
    exact Nat.div_lt_of_lt_mul (by simpa [inBuffer, mul_comm] using ha)
  · rintro ⟨k, hk, ha, hb⟩
    obtain ⟨e, hle⟩ := element_of_sampleIndex hes h0 ha
    refine ⟨?_, e ▸ hb⟩
    have : (k + 1) * es ≤ size.toNat * es := Nat.mul_le_mul_right es hk
    rw [Nat.succ_mul] at this
    simp only [inBuffer, decide_eq_true_eq]
    omega

/-- The bytes that share a source sample, or a destination sample, of the command with byte `a`. -/
theorem mem_samplesAt {i : Instr} {a b : Addr} :
    b ∈ samplesAt i a ↔ ∃ k < i.ops.size.toNat,
      (a ∈ sourceBytes i (BitVec.ofNat 32 k) ∧ b ∈ sourceBytes i (BitVec.ofNat 32 k)) ∨
        (a ∈ destBytes i (BitVec.ofNat 32 k) ∧ b ∈ destBytes i (BitVec.ofNat 32 k)) := by
  have hs := mem_element_iff (base := i.ops.src) (a := a) (b := b) (size := i.ops.size)
    (srcElemSize_dvd i) (srcElemSize_pos i)
  have hd := mem_element_iff (base := dstBase i) (a := a) (b := b) (size := i.ops.size)
    (dstElemSize_dvd i) (dstElemSize_pos i)
  have guarded (p : Bool) (l : List Addr) : b ∈ (if p = true then l else []) ↔ p = true ∧ b ∈ l := by
    cases p <;> simp
  simp only [samplesAt, List.mem_append, guarded]
  simp only [isSourceByte, isDestByte, sourceBytes, destBytes, and_or_left, exists_or, hs, hd]

/-- A sample is the last writer of a byte among `n + 1` samples iff it is sample `n`, or is so among `n` and
sample `n` does not write the byte. -/
theorem lastWriter_succ {i : Instr} {n k : Nat} {b : Addr} :
    lastWriter i (n + 1) k b ↔ (k = n ∧ b ∈ destBytes i (BitVec.ofNat 32 n)) ∨
      (b ∉ destBytes i (BitVec.ofNat 32 n) ∧ lastWriter i n k b) := by
  constructor
  · rintro ⟨hk, hb, hl⟩
    rcases Nat.lt_succ_iff_lt_or_eq.1 hk with hk | rfl
    · exact .inr ⟨hl n hk (Nat.lt_succ_self n), hk, hb, fun j h1 h2 => hl j h1 (Nat.lt_succ_of_lt h2)⟩
    · exact .inl ⟨rfl, hb⟩
  · rintro (⟨rfl, hb⟩ | ⟨hn, hk, hb, hl⟩)
    · exact ⟨Nat.lt_succ_self k, hb, fun j h1 h2 => by omega⟩
    · refine ⟨Nat.lt_succ_of_lt hk, hb, fun j h1 h2 => ?_⟩
      rcases Nat.lt_succ_iff_lt_or_eq.1 h2 with h2 | rfl
      · exact hl j h1 h2
      · exact hn

/-- What one more sample does to the tainted bytes: it makes its own what it is itself. -/
theorem mem_taintedAfter_succ {i : Instr} {wrote : List Addr} {n : Nat} {b : Addr} :
    b ∈ taintedAfter i wrote (n + 1) ↔
      (b ∈ destBytes i (BitVec.ofNat 32 n) ∧
        sampleTouched i wrote (taintedAfter i wrote n) (BitVec.ofNat 32 n) = true) ∨
      (b ∉ destBytes i (BitVec.ofNat 32 n) ∧ b ∈ taintedAfter i wrote n) := by
  simp only [taintedAfter]
  by_cases hb : b ∈ destBytes i (BitVec.ofNat 32 n) <;> split <;> simp_all

/-- The tainted bytes are those whose last writer is unspecified. -/
theorem mem_taintedAfter_iff {i : Instr} {wrote : List Addr} {n : Nat} {b : Addr} :
    b ∈ taintedAfter i wrote n ↔
      ∃ k, lastWriter i n k b ∧ sampleTouched i wrote (taintedAfter i wrote k) (BitVec.ofNat 32 k) = true := by
  induction n with
  | zero => simp [taintedAfter, lastWriter]
  | succ n ih =>
    rw [mem_taintedAfter_succ, ih]
    constructor
    · rintro (⟨hb, ht⟩ | ⟨hb, k, hk, ht⟩)
      · exact ⟨n, lastWriter_succ.2 (.inl ⟨rfl, hb⟩), ht⟩
      · exact ⟨k, lastWriter_succ.2 (.inr ⟨hb, hk⟩), ht⟩
    · rintro ⟨k, hk, ht⟩
      rcases lastWriter_succ.1 hk with ⟨rfl, hb⟩ | ⟨hb, hk⟩
      · exact .inl ⟨hb, ht⟩
      · exact .inr ⟨hb, k, hk, ht⟩

/-- A sample is unspecified iff the host wrote into it, or it is computed from a sample of that kind (R64). -/
theorem sampleTouched_iff {i : Instr} {wrote : List Addr} {k : Nat} :
    sampleTouched i wrote (taintedAfter i wrote k) (BitVec.ofNat 32 k) = true ↔ ComputedFrom i wrote k := by
  simp only [sampleTouched, Bool.or_eq_true, List.any_eq_true, List.contains_iff_mem]
  constructor
  · induction k using Nat.strong_induction_on with
    | _ k ih =>
      rintro (⟨c, hc, h | h⟩ | ⟨c, hc, h⟩)
      · exact .direct h (.inl hc)
      · obtain ⟨j, hj, ht⟩ := mem_taintedAfter_iff.1 h
        simp only [sampleTouched, Bool.or_eq_true, List.any_eq_true, List.contains_iff_mem] at ht
        exact .through hc hj (ih j hj.1 ht)
      · exact .direct h (.inr hc)
  · intro h
    induction h with
    | direct ha hk =>
      rcases hk with hk | hk
      · exact .inl ⟨_, hk, .inl ha⟩
      · exact .inr ⟨_, hk, ha⟩
    | through hc hj _ ih =>
      refine .inl ⟨_, hc, .inr (mem_taintedAfter_iff.2 ⟨_, hj, ?_⟩)⟩
      simpa only [sampleTouched, Bool.or_eq_true, List.any_eq_true, List.contains_iff_mem] using ih

/-- A tainted byte is a destination byte of a sample already processed. -/
theorem mem_dest_of_mem_taintedAfter {i : Instr} {wrote : List Addr} {n : Nat} {b : Addr}
    (h : b ∈ taintedAfter i wrote n) : ∃ k < n, b ∈ destBytes i (BitVec.ofNat 32 k) :=
  let ⟨k, hk, _⟩ := mem_taintedAfter_iff.1 h
  ⟨k, hk.1, hk.2.1⟩

/-! ### The sample in flight at a reset -/

/-- The chosen bytes are among those of the sample. -/
theorem mem_of_mem_chosenCells {choice : BitVec 8} {k : Nat} {l : List (Addr × Byte)} {c : Addr × Byte}
    (h : c ∈ chosenCells choice k l) : c ∈ l := by
  induction l generalizing k with
  | nil => cases h
  | cons d l ih =>
    unfold chosenCells at h
    split at h
    · rcases List.mem_cons.1 h with rfl | h
      · exact List.mem_cons_self
      · exact List.mem_cons_of_mem _ (ih h)
    · exact List.mem_cons_of_mem _ (ih h)

/-- Different addresses stay different. -/
theorem chosenCells_nodup {choice : BitVec 8} {k : Nat} {l : List (Addr × Byte)}
    (h : (l.map Prod.fst).Nodup) : ((chosenCells choice k l).map Prod.fst).Nodup := by
  induction l generalizing k with
  | nil => exact h
  | cons d l ih =>
    rw [List.map_cons, List.nodup_cons] at h
    unfold chosenCells
    split
    · rw [List.map_cons, List.nodup_cons]
      refine ⟨fun hm => h.1 ?_, ih h.2⟩
      obtain ⟨c, hc, e⟩ := List.mem_map.1 hm
      exact List.mem_map.2 ⟨c, mem_of_mem_chosenCells hc, e⟩
    · exact ih h.2

/-! ### The end of a run -/

/-- A failed run has not ended well, and neither has one whose engine is still `BUSY` (R227). -/
theorem not_runEnded_of_not_idle {s₀ s : State} (h : s.st ≠ .idle) : ¬ runEnded s₀ s := fun e => h e.2.1

/-- A run of at least one command has ended well only where the last accepted one completed (R26, R227). -/
theorem done_of_runEnded {s₀ s : State} (h : commandsLeft s₀ ≠ []) (e : runEnded s₀ s) : s.done = true :=
  e.2.2.resolve_right h

end Sys2Proof.Laws
end

