-- ==== Sys2Proof/Laws/Encode.lean ====
section
/-! SUPPORT. Where the bits of a list of words stand in a descriptor (R80), and the fields of an encoded
command (R81). -/

namespace Sys2Proof.Laws

open Sys2Proof

/-- Bit `32k + j` of a descriptor is bit `j` of word `Wk` (R80). -/
theorem rawOfWords_getLsbD (ws : List Word) (k j : Nat) (hj : j < 32) (hk : k < 12) :
    (rawOfWords ws).getLsbD (32 * k + j) = (ws.getD k 0).getLsbD j := by
  induction ws generalizing k with
  | nil => simp [rawOfWords]
  | cons w ws ih =>
    simp only [rawOfWords, BitVec.getLsbD_or, BitVec.getLsbD_shiftLeft, BitVec.getLsbD_setWidth]
    cases k with
    | zero => simp [hj]; omega
    | succ k =>
      have h1 : 32 * (k + 1) + j - 32 = 32 * k + j := by omega
      have h2 : w.getLsbD (32 * (k + 1) + j) = false := BitVec.getLsbD_of_ge _ _ (by omega)
      have h3 : 32 * (k + 1) + j < 384 := by omega
      simp [h1, h2, h3, ih k (by omega)]
      omega

/-- A field of a descriptor is the same bits of its word (R81). -/
theorem rawField_rawOfWords (ws : List Word) (k lo n : Nat) (hn : lo + n ≤ 32) (hk : k < 12) :
    rawField (rawOfWords ws) k lo n = (ws.getD k 0).extractLsb' lo n := by
  apply BitVec.eq_of_getLsbD_eq
  intro j hj
  simp only [rawField, BitVec.getLsbD_extractLsb', hj, decide_true, Bool.true_and]
  rw [Nat.add_assoc, rawOfWords_getLsbD _ _ _ (by omega) hk]

/-- The operands of a command come back from its descriptor. -/
theorem rawDescriptor_encode (i : Instr) : rawDescriptor (encode i) = instrDescriptor i := by
  have app : ∀ x : DWord, x.extractLsb' 32 32 ++ x.extractLsb' 0 32 = x := fun x => by
    apply BitVec.eq_of_getLsbD_eq
    intro j hj
    simp only [BitVec.getLsbD_append, BitVec.getLsbD_extractLsb']
    by_cases h : j < 32
    · simp [h]
    · have : j - 32 < 32 := by omega
      have e : 32 + (j - 32) = j := by omega
      simp [h, this, e]
  simp only [rawDescriptor, rawOperands, encode]
  simp only [rawField_rawOfWords, Nat.zero_add, Nat.reduceAdd, Nat.reduceLeDiff, Nat.reduceLT, encodeWords,
    List.getD_cons_zero, List.getD_cons_succ]
  have lowApp : ∀ x y : Half, (x ++ y : Word).extractLsb' 0 16 = y := fun x y =>
    BitVec.extractLsb'_append_eq_right (a := x) (b := y)
  have highApp : ∀ x y : Half, (x ++ y : Word).extractLsb' 16 16 = x := fun x y =>
    BitVec.extractLsb'_append_eq_left (a := x) (b := y)
  have opcApp : ∀ y : BitVec 2, ((0 : BitVec 30) ++ y : Word).extractLsb' 0 2 = y := fun y =>
    BitVec.extractLsb'_append_eq_right (a := (0 : BitVec 30)) (b := y)
  have full : ∀ x : Word, x.extractLsb' 0 32 = x := fun x => BitVec.extractLsb'_eq_self
  simp only [full, app, lowApp, highApp, opcApp]
  rfl

/-- The reserved fields of an encoded command are 0 (R85). -/
theorem rawField_encode_reserved (i : Instr) :
    rawField (encode i) 0 2 30 = 0 ∧ rawField (encode i) 10 16 16 = 0 := by
  simp only [encode, rawField_rawOfWords, Nat.reduceAdd, Nat.reduceLeDiff, Nat.reduceLT, encodeWords,
    List.getD_cons_zero, List.getD_cons_succ]
  exact ⟨BitVec.extractLsb'_append_eq_left (a := (0 : BitVec 30)) (b := instrOpc i),
    BitVec.extractLsb'_append_eq_left (a := (0 : BitVec 16)) (b := i.ops.drange)⟩

end Sys2Proof.Laws
end

