-- ==== Sys2Proof/Laws/Float.lean ====
section
/-! SUPPORT. The laws of rounding (40_lsoc_unit.md R114): a binary64 value rounds to itself, rounding is
monotone and never moves a fraction by more than half the spacing. -/

namespace Sys2Proof.Laws

open Sys2Proof Sys2Proof.Machine

theorem f64One_pos : 0 < f64One := by unfold f64One; positivity

/-! ### To a whole number -/

/-- A whole number rounds to itself. -/
theorem roundHalfEven_mul (n : Nat) {d : Nat} (hd : 0 < d) : roundHalfEven (n * d) d = n := by
  simp [roundHalfEven, hd]

/-- Rounding moves a fraction by at most one half, either way. -/
theorem roundHalfEven_near (n : Nat) {d : Nat} (hd : 0 < d) :
    2 * (roundHalfEven n d * d) ≤ 2 * n + d ∧ 2 * n ≤ 2 * (roundHalfEven n d * d) + d := by
  have h := Nat.div_add_mod n d
  have hm := Nat.mod_lt n hd
  have hc : d * (n / d) = n / d * d := Nat.mul_comm ..
  simp only [roundHalfEven]
  have e1 : (n / d + 1) * d = n / d * d + d := by ring
  have e0 : n / d % 2 = 0 ∨ n / d % 2 = 1 := by omega
  split_ifs
  · omega
  · rw [e1]; omega
  · rcases e0 with e0 | e0 <;> rw [e0]
    · rw [Nat.add_zero]; omega
    · rw [e1]; omega

/-- Rounding is monotone. -/
theorem roundHalfEven_mono {n n' : Nat} {d : Nat} (hd : 0 < d) (h : n ≤ n') :
    roundHalfEven n d ≤ roundHalfEven n' d := by
  by_contra hlt
  rw [not_le] at hlt
  have near := roundHalfEven_near n hd
  have near' := roundHalfEven_near n' hd
  have hstep : (roundHalfEven n' d + 1) * d ≤ roundHalfEven n d * d := Nat.mul_le_mul_right d hlt
  rw [Nat.add_mul, Nat.one_mul] at hstep
  obtain rfl : n = n' := by omega
  omega

/-- A fraction below a whole number rounds to at most that number. -/
theorem roundHalfEven_le {n d k : Nat} (hd : 0 < d) (h : n ≤ k * d) : roundHalfEven n d ≤ k := by
  simpa [roundHalfEven_mul k hd] using roundHalfEven_mono hd h

/-- A fraction not below a whole number rounds to at least that number. -/
theorem le_roundHalfEven {n d k : Nat} (hd : 0 < d) (h : k * d ≤ n) : k ≤ roundHalfEven n d := by
  simpa [roundHalfEven_mul k hd] using roundHalfEven_mono hd h

/-! ### To a binary64 magnitude -/

theorem spacingExp_mono {n n' d : Nat} (h : n ≤ n') : spacingExp n d ≤ spacingExp n' d :=
  Nat.sub_le_sub_right (Nat.log_mono_right (Nat.div_le_div_right h)) 52

/-- A fraction has fewer than 54 bits in units of its spacing. -/
theorem div_lt_spacing (n d : Nat) : n / d < 2 ^ 53 * 2 ^ spacingExp n d := by
  have h := Nat.lt_pow_succ_log_self (b := 2) (by norm_num) (n / d)
  rw [← Nat.pow_add]
  refine h.trans_le (Nat.pow_le_pow_right (by norm_num) ?_)
  unfold spacingExp; omega

/-- Where the spacing is more than one unit, a fraction has 53 bits in units of it. -/
theorem spacing_le_div {n d : Nat} (h : spacingExp n d ≠ 0) : 2 ^ 52 * 2 ^ spacingExp n d ≤ n / d := by
  have hlog : 52 < Nat.log 2 (n / d) := by unfold spacingExp at h; omega
  have hne : n / d ≠ 0 := by
    intro h0; simp [h0] at hlog
  have hp := Nat.pow_log_le_self 2 hne
  rw [← Nat.pow_add]
  refine le_trans (Nat.pow_le_pow_right (by norm_num) ?_) hp
  unfold spacingExp; omega

/-- The rounded magnitude in units of the spacing has at most 53 bits, or is 2^53. -/
theorem roundHalfEven_spacing_le (n : Nat) {d : Nat} (hd : 0 < d) :
    roundHalfEven n (d * 2 ^ spacingExp n d) ≤ 2 ^ 53 := by
  refine roundHalfEven_le (by positivity) ?_
  have h := div_lt_spacing n d
  rw [Nat.div_lt_iff_lt_mul hd] at h
  calc n ≤ 2 ^ 53 * 2 ^ spacingExp n d * d := h.le
    _ = _ := by ring

/-- A binary64 magnitude rounds to itself. -/
theorem roundMag_exact {m sig e d : Nat} (hd : 0 < d) (hs : sig < 2 ^ 53) (hm : m = sig * 2 ^ e) :
    roundMag (m * d) d = m := by
  have hdiv : m * d / d = m := Nat.mul_div_cancel m hd
  have hdvd : 2 ^ spacingExp (m * d) d ∣ m := by
    by_cases h0 : spacingExp (m * d) d = 0
    · simp [h0]
    · have hle := spacing_le_div h0
      rw [hdiv] at hle
      have he : spacingExp (m * d) d ≤ e := by
        by_contra hlt
        have h1 : 2 ^ (e + 1) ≤ 2 ^ spacingExp (m * d) d := Nat.pow_le_pow_right (by norm_num) (by omega)
        have h2 : sig * 2 ^ e < 2 ^ 53 * 2 ^ e := Nat.mul_lt_mul_of_pos_right hs (by positivity)
        have h3 : 2 ^ 52 * 2 ^ (e + 1) ≤ 2 ^ 52 * 2 ^ spacingExp (m * d) d := Nat.mul_le_mul_left _ h1
        have h4 : 2 ^ 52 * 2 ^ (e + 1) = 2 ^ 53 * 2 ^ e := by rw [pow_succ]; ring
        omega
      have hp : 2 ^ spacingExp (m * d) d ∣ 2 ^ e := Nat.pow_dvd_pow 2 he
      exact hm ▸ dvd_mul_of_dvd_right hp sig
  obtain ⟨k, hk⟩ := hdvd
  have hmul : m * d = k * (d * 2 ^ spacingExp (m * d) d) := by
    calc m * d = 2 ^ spacingExp (m * d) d * k * d := by rw [← hk]
      _ = _ := by ring
  have hround : roundHalfEven (m * d) (d * 2 ^ spacingExp (m * d) d) = k := by
    have := roundHalfEven_mul k (d := d * 2 ^ spacingExp (m * d) d) (by positivity)
    rwa [← hmul] at this
  unfold roundMag
  simp only [hround]
  rw [Nat.mul_comm]
  exact hk.symm

/-- The rounded magnitude is a binary64 magnitude but for the overflow limit. -/
theorem roundMag_shape (n : Nat) {d : Nat} (hd : 0 < d) :
    ∃ sig e : Nat, sig < 2 ^ 53 ∧ roundMag n d = sig * 2 ^ e := by
  rcases (roundHalfEven_spacing_le n hd).lt_or_eq with h | h
  · exact ⟨_, _, h, rfl⟩
  · refine ⟨1, 53 + spacingExp n d, by norm_num, ?_⟩
    simp only [roundMag, h, Nat.one_mul, Nat.pow_add]

/-- Rounding to binary64 is monotone. -/
theorem roundMag_mono {n n' d : Nat} (hd : 0 < d) (h : n ≤ n') : roundMag n d ≤ roundMag n' d := by
  unfold roundMag
  rcases (spacingExp_mono (d := d) h).lt_or_eq with hlt | heq
  · have h0 : spacingExp n' d ≠ 0 := by omega
    have hlow : 2 ^ 52 ≤ roundHalfEven n' (d * 2 ^ spacingExp n' d) := by
      refine le_roundHalfEven (by positivity) ?_
      have := (Nat.le_div_iff_mul_le hd).1 (spacing_le_div h0)
      calc 2 ^ 52 * (d * 2 ^ spacingExp n' d) = 2 ^ 52 * 2 ^ spacingExp n' d * d := by ring
        _ ≤ n' := this
    have hpow : 2 ^ (spacingExp n d + 1) ≤ 2 ^ spacingExp n' d := Nat.pow_le_pow_right (by norm_num) hlt
    calc roundHalfEven n (d * 2 ^ spacingExp n d) * 2 ^ spacingExp n d
        ≤ 2 ^ 53 * 2 ^ spacingExp n d := Nat.mul_le_mul_right _ (roundHalfEven_spacing_le n hd)
      _ = 2 ^ 52 * 2 ^ (spacingExp n d + 1) := by rw [pow_succ]; ring
      _ ≤ 2 ^ 52 * 2 ^ spacingExp n' d := Nat.mul_le_mul_left _ hpow
      _ ≤ _ := Nat.mul_le_mul_right _ hlow
  · simp only [heq]
    exact Nat.mul_le_mul_right _ (roundHalfEven_mono (by positivity) h)

/-- A fraction of at most a binary64 magnitude rounds to at most that magnitude. -/
theorem roundMag_le {n d m sig e : Nat} (hd : 0 < d) (hs : sig < 2 ^ 53) (hm : m = sig * 2 ^ e)
    (h : n ≤ m * d) : roundMag n d ≤ m := by
  simpa [roundMag_exact hd hs hm] using roundMag_mono hd h

/-- Below the limit, rounding gives a finite value. -/
theorem roundF64_of_lt {neg : Bool} {n d : Nat} (h : roundMag n d < f64Limit) :
    roundF64 neg n d = .fin neg (roundMag n d) := by
  simp [roundF64, Nat.not_le.2 h]

/-! ### Integers -/

@[simp] theorem signed_false (m : Nat) : signed false m = m := rfl

@[simp] theorem signed_true (m : Nat) : signed true m = -(m : Int) := rfl

/-- `toF64(n)` is `n`, exactly (R115). -/
theorem truncZ_toF64 (n : Int) : truncZ (toF64 n) = n := by
  unfold truncZ toF64
  simp only [Nat.mul_div_cancel _ f64One_pos, signed]
  by_cases h : n < 0
  · simp only [h, decide_true, if_true]; omega
  · simp only [h, decide_false, Bool.false_eq_true, if_false]; omega

@[simp] theorem isFinite_toF64 (n : Int) : isFinite (toF64 n) = true := rfl

/-- Narrowing an integer's binary64 value narrows the integer (R110, R117). -/
@[simp] theorem narrowF_toF64 (N : Nat) (n : Int) : narrowF N (toF64 n) = BitVec.ofInt N n := by
  simp [narrowF, truncZ_toF64]

end Sys2Proof.Laws
end

