-- ==== Sys2Proof/Laws/PerInstr.lean ====
section
/-! SUPPORT. What holds of every instruction as syntax, one lemma per constructor. -/

/-- The descriptor a command encodes to is legal (R86), and its `OPC` field is the command's code (R82). -/
def Sys2Proof.Laws.EncodesLegally.Statement (i : Sys2Proof.Instr) : Prop :=
  Sys2Proof.legalDescriptor (Sys2Proof.encode i) ∧
    (Sys2Proof.encode i).extractLsb' 0 2 = Sys2Proof.instrOpc i

namespace Sys2Proof.Laws

open Sys2Proof

/-- From the fields of an encoded command to the statement. -/
theorem encodesLegally_of_opc (i : Instr) (h : instrOpc i ≠ 0) : EncodesLegally.Statement i := by
  have h0 : (encode i).extractLsb' 0 2 = instrOpc i := by
    simpa [rawDescriptor, rawField, instrDescriptor] using congrArg Descriptor.opc (rawDescriptor_encode i)
  obtain ⟨h1, h2⟩ := rawField_encode_reserved i
  exact ⟨⟨by rw [h0]; exact h, h1, h2⟩, h0⟩

end Sys2Proof.Laws

theorem Sys2Proof.Laws.EncodesLegally.pvs8 (d : Sys2Proof.Operands) :
    Sys2Proof.Laws.EncodesLegally.Statement (.pvs8 d) :=
  Sys2Proof.Laws.encodesLegally_of_opc _ (by simp [Sys2Proof.instrOpc])

theorem Sys2Proof.Laws.EncodesLegally.pvs16 (d : Sys2Proof.Operands) :
    Sys2Proof.Laws.EncodesLegally.Statement (.pvs16 d) :=
  Sys2Proof.Laws.encodesLegally_of_opc _ (by simp [Sys2Proof.instrOpc])

theorem Sys2Proof.Laws.EncodesLegally.pvs32 (d : Sys2Proof.Operands) :
    Sys2Proof.Laws.EncodesLegally.Statement (.pvs32 d) :=
  Sys2Proof.Laws.encodesLegally_of_opc _ (by simp [Sys2Proof.instrOpc])
end

