-- ==== Sys2Proof/Tests/Slice0.lean ====
section
/-! SUPPORT. Tests, with expected values from the spec (95_test_vectors.md and the rules' own examples), and
for each obligation with hypotheses a state and operands that meet them together. -/

namespace Sys2Proof.Tests

open Sys2Proof Sys2Proof.Machine

-- One theorem at a time: elaborated all at once they take more threads than the memory limit of a check allows.
set_option Elab.async false

/-! ### Building states -/

/-- Memory holding the bytes from an address on. -/
def bytesAt (a : Addr) (bytes : List Byte) : Memory :=
  (bytes.foldl (fun (p : Addr × Memory) b => (p.1 + 1, writeByte p.2 p.1 b)) (a, [])).2

/-- The command in execution, at sample `k`, over this memory. -/
def busyAt (i : Instr) (k : Word) (m : Memory) : State :=
  { State.reset with st := .busy, desc := instrDescriptor i, idx := k, mem := m }

/-- Only the addresses below 0x1000 are mapped (programs P7 and P8). -/
def lowMap : List Region := [⟨0, 0xFFF, .ordinary⟩]

/-- The whole space is mapped, and everything from 0x1000 on is device memory. -/
def deviceMap : List Region := [⟨0, 0xFFF, .ordinary⟩, ⟨0x1000, 0xFFFFFFFF, .device⟩]

/-- The command of R90 and S1: bytes `[0, 128, 255]`, black 50, white 200. -/
def s1 : Operands := ⟨3, 0x1000, 0, 0, 0x3FF0000000000000, 50, 200, 0, 255, 255, 0⟩

/-- The command of P2. -/
def p2 : Operands :=
  ⟨6, 0x2000, 0x3000, 0x40E0000000000000, 0x3FF0000000000000, 1000, 60000, 0, 65535, 65535, 0⟩

/-- The command of P3. -/
def p3 : Operands := ⟨8, 0x4000, 0x5000, 0, 0, 1000, 60000, 0, 65535, 65535, 32⟩

/-- What a step leaves, if it has a next state. -/
def nextState : Host.Outcome State Fault Refusal → Option State
  | .next t => some t
  | _ => none

theorem exists_next {o : Host.Outcome State Fault Refusal} (h : (nextState o).isSome = true) :
    ∃ t, o = .next t := by
  cases o with
  | next t => exact ⟨t, rfl⟩
  | fault f => cases h
  | refused r => cases h

/-- A check of each entry of a list shows it of every member. -/
theorem all_mem {α : Type} {l : List α} {p : α → Prop} [DecidablePred p]
    (h : (l.all fun x => decide (p x)) = true) : ∀ x ∈ l, p x := by
  simpa using h

/-- A check of each byte shows that a sample is accessible. -/
theorem sampleAccessible_of {i : Instr} {s : State}
    (h : ((sourceBytes i s.idx ++ destBytes i s.idx).all fun a => decide (accessible s a)) = true) :
    sampleAccessible i s :=
  ⟨fun a ha => all_mem h a (List.mem_append_left _ ha), fun a ha => all_mem h a (List.mem_append_right _ ha)⟩

/-- A property of the next state. -/
def afterStep (o : Host.Outcome State Fault Refusal) (p : State → Bool) : Bool :=
  match o with
  | .next t => p t
  | _ => false

/-! ### Well-formedness: an ill-formed term for each check -/

theorem test_illegal_opcode : ¬ legalDescriptor 0 := by decide +kernel

theorem test_illegal_reserved_w0 : ¬ legalDescriptor 5 := by decide +kernel

theorem test_illegal_reserved_w10 :
    ¬ legalDescriptor (rawOfWords [1, 0, 0, 0, 0, 0, 0, 0, 0, 0, 0x000100FF, 0]) := by decide +kernel

theorem test_ill_formed_latch : ¬ (⟨0, zeroOperands⟩ : Descriptor).wellFormed := by decide

/-- An assembler form of PVS8 with one operand of its own. -/
def asm8 (x : Int × Int × RealLit × RealLit × Int × Int × Int × Int × Int) : Asm :=
  .pvs8 x.1 x.2.1 x.2.2.1 x.2.2.2.1 x.2.2.2.2.1 x.2.2.2.2.2.1 x.2.2.2.2.2.2.1 x.2.2.2.2.2.2.2.1
    x.2.2.2.2.2.2.2.2

theorem test_ill_formed_asm_pvs8 :
    let one : RealLit := .pattern 1
    let big : RealLit := .pattern (2 ^ 64)
    ([asm8 (-1, 0, one, one, 0, 0, 0, 0, 0), asm8 (0, 4294967296, one, one, 0, 0, 0, 0, 0),
      asm8 (0, 0, big, one, 0, 0, 0, 0, 0), asm8 (0, 0, one, big, 0, 0, 0, 0, 0),
      asm8 (0, 0, one, one, 65536, 0, 0, 0, 0), asm8 (0, 0, one, one, 0, 65536, 0, 0, 0),
      asm8 (0, 0, one, one, 0, 0, 65536, 0, 0), asm8 (0, 0, one, one, 0, 0, 0, 65536, 0),
      asm8 (0, 0, one, one, 0, 0, 0, 0, 65536)].map Asm.wellFormed) = List.replicate 9 false ∧
    (asm8 (0, 0, one, one, 65535, 65535, 65535, 65535, 65535)).wellFormed = true := by decide

theorem test_ill_formed_asm_pvs16 :
    let one : RealLit := .decimal false 1 0 0
    let big : RealLit := .pattern (2 ^ 64)
    ([Asm.pvs16 4294967296 0 0 one one 0 0 0 0 0, .pvs16 0 (-1) 0 one one 0 0 0 0 0,
      .pvs16 0 0 (-1) one one 0 0 0 0 0, .pvs16 0 0 0 big one 0 0 0 0 0, .pvs16 0 0 0 one big 0 0 0 0 0,
      .pvs16 0 0 0 one one (-1) 0 0 0 0, .pvs16 0 0 0 one one 0 (-1) 0 0 0, .pvs16 0 0 0 one one 0 0 (-1) 0 0,
      .pvs16 0 0 0 one one 0 0 0 (-1) 0, .pvs16 0 0 0 one one 0 0 0 0 (-1)].map Asm.wellFormed) =
      List.replicate 10 false := by decide

theorem test_ill_formed_asm_pvs32 :
    ([Asm.pvs32 (-1) 0 0 0 0 0 0 0 32, .pvs32 0 (-1) 0 0 0 0 0 0 32, .pvs32 0 0 (-1) 0 0 0 0 0 32,
      .pvs32 0 0 0 65536 0 0 0 0 32, .pvs32 0 0 0 0 65536 0 0 0 32, .pvs32 0 0 0 0 0 65536 0 0 32,
      .pvs32 0 0 0 0 0 0 65536 0 32, .pvs32 0 0 0 0 0 0 0 65536 32, .pvs32 0 0 0 0 0 0 0 0 2147483648,
      .pvs32 0 0 0 0 0 0 0 0 (-2147483649)].map Asm.wellFormed) = List.replicate 10 false ∧
    (Asm.pvs32 0 0 0 0 0 0 0 0 (-2147483648)).wellFormed = true := by decide

/-! ### Decoding: words written out from R81 and R82 -/

/-- P1's descriptor, the example of R90. -/
theorem test_decode_pvs8 :
    decode (rawOfWords [0x00000001, 0x00000003, 0x00001000, 0x00000000, 0x00000000, 0x00000000, 0x00000000,
      0x3FF00000, 0x00C80032, 0x00FF0000, 0x000000FF, 0x00000000]) = .ok (.pvs8 s1) := by decide +kernel

/-- P2's descriptor. -/
theorem test_decode_pvs16 :
    decode (rawOfWords [0x00000002, 0x00000006, 0x00002000, 0x00003000, 0x00000000, 0x40E00000, 0x00000000,
      0x3FF00000, 0xEA6003E8, 0xFFFF0000, 0x0000FFFF, 0x00000000]) = .ok (.pvs16 p2) := by decide +kernel

/-- P3's descriptor. -/
theorem test_decode_pvs32 :
    decode (rawOfWords [0x00000003, 0x00000008, 0x00004000, 0x00005000, 0x00000000, 0x00000000, 0x00000000,
      0x00000000, 0xEA6003E8, 0xFFFF0000, 0x0000FFFF, 0x00000020]) = .ok (.pvs32 p3) := by decide +kernel

/-- V-ENC 4, 5, 6: the illegal descriptors, by name. -/
theorem test_decode_illegal :
    decode (rawOfWords [0, 0, 0, 0, 0, 0, 0, 0, 0, 0, 0, 0]) = .error .opcodeZero ∧
    decode (rawOfWords [5, 0, 0, 0, 0, 0, 0, 0, 0, 0, 0x000000FF, 0]) = .error .reservedW0 ∧
    decode (rawOfWords [1, 0, 0, 0, 0, 0, 0, 0, 0, 0, 0x000100FF, 0]) = .error .reservedW10 := by
  decide +kernel

/-- V-ENC 7: ignored fields may hold anything, and are kept. -/
theorem test_decode_ignored_fields :
    decode (rawOfWords [1, 0, 0, 0xFFFFFFFF, 0, 0, 0, 0, 0, 0, 0x000000FF, 0x12345678]) =
      .ok (.pvs8 ⟨0, 0, 0xFFFFFFFF, 0, 0, 0, 0, 0, 0, 255, 0x12345678⟩) := by decide +kernel

/-- The table's rows, operand words zero: the decoder gives the row's command, and the first step after
reset accepts it. -/
theorem test_table_rows :
    [1, 2, 3].map (decodeTableWord 384) =
      [some (.pvs8 zeroOperands), some (.pvs16 zeroOperands), some (.pvs32 zeroOperands)] ∧
    [1, 2, 3].map (fun w => afterStep (step (State.reset.withFetchWord 384 w)) fun t =>
      decide (t.st = .busy ∧ t.desc = ⟨BitVec.ofNat 2 w, zeroOperands⟩)) = [true, true, true] := by
  decide +kernel

/-- P4's command, by its synonym in the function form (R88). -/
theorem test_assemble_synonym :
    (assembleLine
      "ScaleIntPixelDataToUShort(0x6000, 0x7000, 6, 0, 65535, 0, 65535, 65535, -32)".toList).map encodeWords =
      some [0x00000003, 0x00000006, 0x00006000, 0x00007000, 0, 0, 0, 0, 0xFFFF0000, 0xFFFF0000, 0x0000FFFF,
        0xFFFFFFE0] := by decide +kernel

/-- V-LSO8 6 and 2: 2.7 and -20.0 as binary64; an operand that does not fit is an error (R88). -/
theorem test_assemble_reals :
    realPattern (.decimal false 27 1 0) = 0x400599999999999A ∧
    realPattern (.decimal true 200 1 0) = 0xC034000000000000 ∧
    assembleLine "PVS8 0x1000, 3, 0.0, 1.0, 65536, 200, 0, 255, 255".toList = none := by decide +kernel

/-- P4's `bpp`, in decimal and in hexadecimal; no other integer operand carries a sign (R88). -/
theorem test_assemble_bpp :
    ["-32".toList, "-0x20".toList, "0x20".toList].map bppLiteral = [some (-32), some (-32), some 32] ∧
    (assembleLine "PVS32 0x4000, 0x5000, -0, 0, 1, 0, 1, 1, 32".toList) = none := by decide +kernel

/-- Program P3 as printed: the bytes of its directive go on on the next line. -/
theorem test_assemble_continued :
    ((State.loaded [".mem 0x4000: 00 00 00 00  E8 03 00 00  30 75 00 00  00 00 01 00".toList,
        "             FF FF FF 00  00 00 00 01  FF FF FF FF  FF FF FF 7F".toList,
        "             ; 0, 1000, 30000, 65536, 16777215, 16777216, -1, 2147483647".toList,
        "PVS32 0x4000, 0x5000, 8, 1000, 60000, 0, 65535, 65535, 32".toList]).map fun s =>
      (readByte s.mem 0x4010, readByte s.mem 0x401F, readByte s.mem 0x4020, s.inbox)) =
    some (0xFF, 0x7F, 0, [.issue (encode (.pvs32 p3))]) := by decide +kernel

/-- P9's second command, an illegal descriptor written out; bytes after a command belong to no directive. -/
theorem test_assemble_descriptor :
    (State.loaded ["(descriptor) 00000000 00000003 00001000 00000000 00000000 00000000 00000000 3FF00000 00C80032 00FF0000 000000FF 00000000".toList]).map
      (fun s => s.inbox.map fun m => match m with
        | .issue raw => decide (raw = rawOfWords [0, 3, 0x1000, 0, 0, 0, 0, 0x3FF00000, 0x00C80032, 0x00FF0000, 0xFF, 0])
        | _ => false) = some [true] ∧
    State.loaded [".mem 0x1000: 00".toList, "PVS8 0x1000, 1, 0, 1, 50, 200, 0, 255, 255".toList, "80".toList] = none := by
  decide +kernel

/-- Program P11: its directives and its command. -/
theorem test_assemble_program :
    ((State.loaded [".mem 0xFFFFFFFF: 3C                                      ; 60".toList,
        ".mem 0x00000000: FA                                      ; 250".toList,
        "".toList, "PVS8 0xFFFFFFFF, 2, 0.0, 1.0, 50, 200, 0, 255, 255".toList]).map fun s =>
      (s.mem, s.inbox.length)) = some ([(0, 0xFA), (0xFFFFFFFF, 0x3C)], 1) := by decide +kernel

/-! ### The shared unit: rows of V-LSO8, V-LSO16, V-ST, V-32I, V-32F -/

/-- V-LSO8 1, 4, 5, 8, 9, 16: wrap, toward zero, NaN, infinity, the largest value below 256. -/
theorem test_lso8 :
    [lso 8 200 (valF64 0x4059000000000000) (valF64 0x3FF0000000000000),
      lso 8 3 (valF64 0) (valF64 0xBFE0000000000000), lso 8 1 (valF64 0) (valF64 0xBFE0000000000000),
      lso 8 5 (valF64 0x7FF8000000000000) (valF64 0x3FF0000000000000),
      lso 8 5 (valF64 0) (valF64 0x7FF0000000000000),
      lso 8 2 (valF64 0x406FFFFFFFFFFFFF) (valF64 0)] = [44, 255, 0, 0, 0, 255] := by decide +kernel

/-- V-LSO16 1, 2, 5, 7, 8, 10. -/
theorem test_lso16 :
    [lso 16 (-32768) (valF64 0x40E0000000000000) (valF64 0x3FF0000000000000),
      lso 16 0 (valF64 0x40E0000000000000) (valF64 0x3FF0000000000000),
      lso 16 (-1) (valF64 0) (valF64 0x3FF0000000000000), lso 16 (-3) (valF64 0) (valF64 0x3FE0000000000000),
      lso 16 20000 (valF64 0) (valF64 0x4010000000000000),
      lso 16 1000 (valF64 0x3FD0000000000000) (valF64 0x3FF8000000000000)] =
      [0, 32768, 65535, 65535, 14464, 1500] := by decide +kernel

/-- V-ST 2, 4, 5, 7, 8, 10, 15, 17: W = 8. -/
theorem test_stretch8 :
    [stretch (128 : Byte) 50 200 0 255 255, stretch 50 50 200 0 255 255, stretch 51 50 200 0 255 255,
      stretch 200 50 200 0 255 255, stretch 7 0 10 0 255 90, stretch 70 100 50 1 2 255,
      stretch 128 50 200 0 255 65535, stretch 10 50 200 300 511 255] = [132, 0, 1, 255, 62, 1, 30, 44] := by
  decide +kernel

/-- V-ST 29, 31, 33, 34, 38, 39: W = 16. -/
theorem test_stretch16 :
    [stretch (1000 : Half) 1000 60000 0 65535 65535, stretch 30000 1000 60000 0 65535 65535,
      stretch 32768 1000 60000 0 65535 65535, stretch 59999 1000 60000 0 65535 65535,
      stretch 32768 0 65535 0 65535 255, stretch 30000 1000 60000 16 235 4095] =
      [0, 32212, 35286, 65533, 127, 2012] := by decide +kernel

/-- V-32I 4, 8, 9, 12, 17 with `BPP = 32`, and 9 with `BPP = 0`. -/
theorem test_conv32_integer :
    [conv32 0x00010000 32 65535, conv32 0x00FFFFFF 32 65535, conv32 0x01000000 32 65535,
      conv32 0xFFFFFFFF 32 65535, conv32 0x01000000 32 4095, conv32 0x01000000 0 65535] =
      [0, 65535, 65535, 65535, 4095, 0] := by decide +kernel

/-- V-32F 5, 6, 9, 10, 13, 16, 19, 20. -/
theorem test_conv32_float :
    [conv32 0x447A3000 (-32) 7, conv32 0xBF000000 (-32) 7, conv32 0x477FFFE6 (-32) 7, conv32 0x47800000 (-32) 7,
      conv32 0xBF800000 (-32) 7, conv32 0x501502F9 (-32) 7, conv32 0x7FC00000 (-32) 7,
      conv32 0x7F800000 (-32) 7] = [1000, 0, 65535, 0, 65535, 58368, 0, 0] := by decide +kernel

/-- R114: 0.1 + 0.2 rounds to 0.30000000000000004, a tie goes to the even fraction (2^53 + 1), the largest
value doubled is an infinity, the smallest subnormal halved is +0.0. -/
theorem test_binary64 :
    packF64 (fadd64 (valF64 0x3FB999999999999A) (valF64 0x3FC999999999999A)) = 0x3FD3333333333334 ∧
    packF64 (fadd64 (valF64 0x4340000000000000) (valF64 0x3FF0000000000000)) = 0x4340000000000000 ∧
    packF64 (fmul64 (valF64 0x7FEFFFFFFFFFFFFF) (valF64 0x4000000000000000)) = 0x7FF0000000000000 ∧
    packF64 (fdiv64 (valF64 0x0000000000000001) (valF64 0x4000000000000000)) = 0 := by decide +kernel

/-! ### One step of each operation -/

/-- S1: sample 1 of the byte scenario, 128 becomes 132. -/
theorem test_pvs8_sample :
    afterStep (exec (.pvs8 s1) (busyAt (.pvs8 s1) 1 (bytesAt 0x1000 [0x00, 0x80, 0xFF, 0x77]))) (fun t =>
      decide (t.mem = bytesAt 0x1000 [0x00, 0x84, 0xFF, 0x77] ∧ t.idx = 2)) = true := by decide +kernel

/-- P7: the read of sample 2 at 0x1000 is unmapped. -/
theorem test_pvs8_fault :
    afterStep (step { busyAt (.pvs8 { s1 with src := 0xFFE, size := 4 }) 2 (bytesAt 0xFFE [0x66, 0xFF]) with
        map := lowMap }) (fun t =>
      decide (t.st = .halted ∧ statusWord t = 0x14 ∧ t.faddr = 0x1000 ∧ t.idx = 2)) = true := by decide +kernel

/-- P2: sample 1, -1, becomes 35285, stored D5 89. -/
theorem test_pvs16_sample :
    afterStep (exec (.pvs16 p2) (busyAt (.pvs16 p2) 1 (bytesAt 0x2000 [0x00, 0x80, 0xFF, 0xFF]))) (fun t =>
      decide (readByte t.mem 0x3002 = 0xD5 ∧ readByte t.mem 0x3003 = 0x89 ∧ t.idx = 2)) = true := by
  decide +kernel

/-- P8: the write of sample 1 covers 0x0FFF and the unmapped 0x1000: neither byte is written. -/
theorem test_pvs16_write_fault :
    afterStep (step { busyAt (.pvs16 ⟨2, 0xF00, 0xFFD, 0, 0x3FF0000000000000, 0, 65535, 0, 65535, 65535, 0⟩) 1
        (bytesAt 0xF02 [0xC8]) with map := lowMap }) (fun t =>
      decide (t.st = .halted ∧ t.faddr = 0x1000 ∧ t.mem = bytesAt 0xF02 [0xC8])) = true := by decide +kernel

/-- P3: sample 5, 16,777,216, is guarded and becomes 65535. -/
theorem test_pvs32_guard :
    afterStep (exec (.pvs32 p3) (busyAt (.pvs32 p3) 5 (bytesAt 0x4014 [0x00, 0x00, 0x00, 0x01]))) (fun t =>
      decide (readByte t.mem 0x500A = 0xFF ∧ readByte t.mem 0x500B = 0xFF ∧ t.idx = 6)) = true := by
  decide +kernel

/-- P5: sample 3 in place: 70000 wraps to 4464 and lands at 0x8006. -/
theorem test_pvs32_in_place :
    afterStep (exec (.pvs32 ⟨4, 0x8000, 0x8000, 0, 0, 0, 65535, 0, 65535, 65535, 32⟩)
      (busyAt (.pvs32 ⟨4, 0x8000, 0x8000, 0, 0, 0, 65535, 0, 65535, 65535, 32⟩) 3
        (bytesAt 0x800C [0x70, 0x11, 0x01, 0x00]))) (fun t =>
      decide (readByte t.mem 0x8006 = 0x70 ∧ readByte t.mem 0x8007 = 0x11)) = true := by decide +kernel

/-- P9: an illegal descriptor after a completed command clears `DONE` and keeps `IDX`. -/
theorem test_illegal_after_completion :
    afterStep (step { State.reset with done := true, idx := 3, inbox := [.issue 0] }) (fun t =>
      decide (statusWord t = 0x0C ∧ t.idx = 3 ∧ t.faddr = 0)) = true := by decide +kernel

/-- P10: with `SIZE = 0` and nothing mapped, the step after acceptance completes. -/
theorem test_empty_command :
    afterStep (step { busyAt (.pvs16 ⟨0, 0xDEAD0000, 0xBEEF0000, 0, 0x3FF0000000000000, 0, 0, 0, 0, 0, 0⟩) 0 []
        with map := [] }) (fun t => decide (statusWord t = 2 ∧ t.idx = 0 ∧ t.mem = [])) = true := by
  decide +kernel

/-! ### Host writes while `BUSY` (R64) -/

/-- Buffers that overlap at an odd offset. The host wrote 0x1FFF, a byte of destination sample 1 only, which also
holds a byte of source sample 0. Sample 0 is read before: its destination is determined. -/
theorem test_touched_after_read :
    let i : Instr := .pvs16 ⟨2, 0x2000, 0x1FFD, 0, 0x3FF0000000000000, 0, 65535, 0, 65535, 65535, 0⟩
    (0x2000 ∈ unspecifiedBytes i [0x1FFF] 2 ∧ 0x1FFF ∈ unspecifiedBytes i [0x1FFF] 2) ∧
      0x1FFD ∉ unspecifiedBytes i [0x1FFF] 2 ∧ 0x1FFE ∉ unspecifiedBytes i [0x1FFF] 2 := by decide +kernel

/-- The host wrote 0x2006, a byte of destination sample 0 only. Source sample 2 holds the other byte and is read
after sample 0 is written: destination sample 2 is computed from it, destination sample 1 is not. -/
theorem test_touched_before_read :
    let i : Instr := .pvs16 ⟨3, 0x2000, 0x2005, 0, 0x3FF0000000000000, 0, 65535, 0, 65535, 65535, 0⟩
    0x200A ∈ unspecifiedBytes i [0x2006] 3 ∧ 0x200A ∉ unspecifiedBytes i [0x2006] 2 ∧
      0x2007 ∉ unspecifiedBytes i [0x2006] 3 ∧ 0x2004 ∉ unspecifiedBytes i [0x2006] 3 := by decide +kernel

/-- The host writes the source byte of S1's second sample: the write is made and held against the command. -/
theorem test_poke_into_command :
    afterStep (step { busyAt (.pvs8 s1) 1 (bytesAt 0x1000 [0x00, 0x80]) with inbox := [.poke 0x1001 7] }) (fun t =>
      decide (readByte t.mem 0x1001 = 7 ∧ t.hostWrote = [0x1001] ∧ t.fresh = 0)) = true := by decide +kernel

/-- P1's second sample is in flight: `MEM` still holds 0x80, and a host read may return the 0x84 the engine will
write there (R64, U8: the value at acceptance or the value the engine writes). -/
theorem test_host_read_before_sample (ahead : Config.freeAhead 0 = 1) (new : (Config.freeChoice 0).getLsbD 0 = false) :
    let s := busyAt (.pvs8 s1) 1 (bytesAt 0x1000 [0x00, 0x80, 0xFF])
    readByte s.mem 0x1001 = 0x80 ∧ hostByte 0x1001 s = 0x84 := by
  intro s
  have current : currentInstr s = some (.pvs8 s1) := by decide +kernel
  have dest : isDestByte (.pvs8 s1) 0x1001 = true := by decide +kernel
  have seen : samplesSeen (.pvs8 s1) 0x1001 s = 1 := by
    rw [samplesSeen, if_pos dest, show s.fresh = 0 from rfl, ahead]; decide +kernel
  refine ⟨by decide +kernel, ?_⟩
  simp only [hostByte, current, seen, dest, show s.fresh = 0 from rfl, new]
  decide +kernel

/-- P8's shape: sample 1 meets unmapped memory, and the host wrote the source of sample 2. However far ahead a host
read looks, the engine writes no destination byte of sample 2: it is not unspecified, and `IDX` stays 1. -/
theorem test_read_past_fault :
    let i : Instr := .pvs16 ⟨4, 0x2000, 0x3000, 0, 0x3FF0000000000000, 0, 65535, 0, 65535, 65535, 0⟩
    let s : State := { busyAt i 1 [] with
      map := [⟨0x2000, 0x2001, .ordinary⟩, ⟨0x2004, 0xFFFF, .ordinary⟩], hostWrote := [0x2004] }
    let u := runAhead i 3 s
    u.idx = 1 ∧ u.mem = [] ∧ 0x3004 ∉ unspecifiedBytes i s.hostWrote u.idx.toNat ∧
      0x3004 ∈ unspecifiedBytes i s.hostWrote 3 := by decide +kernel

/-! ### Witnesses: states and operands that meet the hypotheses of the obligations -/

/-- PVS8's S1 command at its second sample, over its buffer. -/
def busy8 : State := busyAt (.pvs8 s1) 1 (bytesAt 0x1000 [0x00, 0x80, 0xFF])

/-- P2 at its second sample. -/
def busy16 : State := busyAt (.pvs16 p2) 1 (bytesAt 0x2000 [0x00, 0x80, 0xFF, 0xFF])

/-- P3 at its sixth sample. -/
def busy32 : State := busyAt (.pvs32 p3) 5 (bytesAt 0x4014 [0x00, 0x00, 0x00, 0x01])

/-- Where the host wrote nothing, the invariant's clause about its writes holds. -/
theorem no_writes {s : State} (h : s.hostWrote = []) :
    ∀ i, s.desc = instrDescriptor i → ∀ a ∈ s.hostWrote, isSourceByte i a = true ∨ isDestByte i a = true := by
  simp [h]

/-- The invariant holds where the engine is busy with a command within its samples. -/
theorem busy8_inv : busy8.Inv := by constructor <;> first | decide +kernel | exact no_writes rfl

/-- R227: a run of one command has ended where it completed, be a wait of the host left; not where a reset
abandoned it (`DONE = 0`), not in `HALTED`. An empty run ends in `IDLE` as it starts. -/
theorem test_run_end :
    let start : State := { State.reset with inbox := [.issue (encode (.pvs8 s1)), .wait] }
    runStart start ∧ ¬ runEnded start start ∧ ¬ runEnded start busy8 ∧
      runEnded start { State.reset with done := true, idx := 3, inbox := [.wait] } ∧
      ¬ runEnded start State.reset ∧ ¬ runEnded start { State.reset with st := .halted } ∧
      runEnded State.reset State.reset := by decide +kernel

theorem witness_EncodeInvertsDecode : decode (encode (.pvs32 p3)) = .ok (.pvs32 p3) := by decide +kernel

theorem witness_OperandFieldsAreContiguous : decode (encode (.pvs8 s1)) = .ok (.pvs8 s1) := by decide +kernel

theorem witness_IllegalDescriptorRaisesFault :
    legalDescriptor (encode (.pvs16 p2)) ∧ ¬ legalDescriptor 0 ∧ ¬ legalDescriptor 4 ∧
      State.reset.st = .idle ∧ { State.reset with inbox := [.issue 0] }.inbox = .issue 0 :: [] := by
  decide +kernel

theorem witness_StepRunsTheDecodedCommand :
    (State.reset.st = .idle ∧ decode (encode (.pvs8 s1)) = .ok (.pvs8 s1)) ∧
    (inExecution (.pvs8 s1) busy8 ∧ busy8.inbox = []) ∧
    inExecution (.pvs16 p2) { busy16 with inbox := [.issue 1] } ∧
    (inExecution (.pvs32 p3) { busy32 with inbox := [.wait] } ∧ busy32.hostWrote = []) := by decide +kernel

theorem witness_AcceptanceLatchesCommand : State.reset.st = .idle := by decide

theorem witness_PresentedDescriptorHasNoEffect :
    (busy8.st ≠ .idle ∧ ∃ t, step { busy8 with inbox := [.issue 1] } = .next t) ∧
    (∃ t, step { State.reset with st := .halted, inbox := [.issue 1] } = .next t) ∧
    (busy8.st = .busy ∧ busy8.desc ≠ instrDescriptor (.pvs16 p2)) ∧ State.reset.st = .idle :=
  ⟨⟨by decide, exists_next (by decide +kernel)⟩, exists_next (by decide +kernel), by decide +kernel, rfl⟩

theorem witness_QuietEngineWaits :
    (State.reset.st ≠ .busy ∧ State.reset.inbox = []) ∧ { State.reset with st := .halted }.st ≠ .busy := by
  decide

theorem witness_Pvs8TransformsSample :
    samplePending (.pvs8 s1) busy8 ∧ Memory.wf busy8.mem ∧ accessible busy8 (effAddr s1.src busy8.idx 1) ∧
      (samplePending (.pvs8 s1) { busy8 with map := lowMap } ∧
        mapped { busy8 with map := lowMap } (effAddr s1.src busy8.idx 1) = false) := by decide +kernel

theorem witness_Pvs16TransformsSample :
    Memory.wf busy16.mem ∧ samplePending (.pvs16 p2) busy16 ∧ sampleAccessible (.pvs16 p2) busy16 :=
  ⟨by decide +kernel, by decide +kernel, sampleAccessible_of (by decide +kernel)⟩

theorem witness_Pvs32TransformsSample :
    Memory.wf busy32.mem ∧ samplePending (.pvs32 p3) busy32 ∧ sampleAccessible (.pvs32 p3) busy32 :=
  ⟨by decide +kernel, by decide +kernel, sampleAccessible_of (by decide +kernel)⟩

/-- A PVS16 command (P8's buffers) at its second sample, whose write covers 0x0FFF and 0x1000. -/
def edge : Operands := ⟨2, 0xF00, 0xFFD, 0, 0, 0, 65535, 0, 65535, 65535, 0⟩

/-- The engine at that sample, over a platform map. -/
def edgeAt (map : List Region) : State := { busyAt (.pvs16 edge) 1 [] with map := map }

/-- A read that meets an unmapped byte first, and a write that meets one second (P8). -/
theorem witness_FirstUnmappedByteFaults :
    (samplePending (.pvs16 p2) { busy16 with map := lowMap } ∧
      (sourceBytes (.pvs16 p2) 1).find? (fun b => !mapped { busy16 with map := lowMap } b) = some 0x2002) ∧
    (samplePending (.pvs16 edge) (edgeAt lowMap) ∧
        (∀ b ∈ sourceBytes (.pvs16 edge) (edgeAt lowMap).idx, accessible (edgeAt lowMap) b) ∧
        (destBytes (.pvs16 edge) (edgeAt lowMap).idx).find? (fun b => !mapped (edgeAt lowMap) b) = some 0x1000) :=
  ⟨by decide +kernel, by decide +kernel, all_mem (by decide +kernel), by decide +kernel⟩

theorem witness_CompletionReturnsToIdle :
    (inExecution (.pvs8 s1) (busyAt (.pvs8 s1) 3 []) ∧ (busyAt (.pvs8 s1) 3 []).idx = s1.size) ∧
    inExecution (.pvs16 p2) (busyAt (.pvs16 p2) 6 []) ∧ inExecution (.pvs32 p3) (busyAt (.pvs32 p3) 8 []) := by
  decide +kernel

theorem witness_CommandStepFrame :
    (∃ t, exec (.pvs8 s1) busy8 = .next t) ∧ (∃ t, exec (.pvs16 p2) busy16 = .next t) ∧
      ∃ t, exec (.pvs32 p3) State.reset = .next t :=
  ⟨exists_next (by decide +kernel), exists_next (by decide +kernel), exists_next (by decide +kernel)⟩

/-- The host wrote byte 0x4004 of P3 while it was `BUSY`: a sample step, and the step that completes. -/
theorem witness_TouchedSamplesEndUnspecified :
    (let s : State := { busy32 with hostWrote := [0x4004] };
      Memory.wf s.mem ∧ inExecution (.pvs32 p3) s ∧ s.inbox = [] ∧ ∃ t, exec (.pvs32 p3) s = .next t ∧ t.st = .busy) ∧
    (let s : State := { busy32 with idx := 8, hostWrote := [0x4004] };
      Memory.wf s.mem ∧ inExecution (.pvs32 p3) s ∧ s.inbox = [] ∧ (∃ t, exec (.pvs32 p3) s = .next t ∧ t.st ≠ .busy) ∧
        0x4005 ∈ unspecifiedBytes (.pvs32 p3) s.hostWrote s.idx.toNat ∧ accessible s 0x4005) ∧
    0x5002 ∈ unspecifiedBytes (.pvs32 p3) [0x4004] 8 :=
  ⟨⟨by decide +kernel, by decide +kernel, rfl, _, rfl, by decide +kernel⟩,
    ⟨by decide +kernel, by decide +kernel, rfl, ⟨_, rfl, by decide +kernel⟩, by decide +kernel⟩, by decide +kernel⟩

theorem witness_DeviceMemoryIsRefused :
    (samplePending (.pvs8 s1) { busy8 with map := deviceMap } ∧ meetsDevice (.pvs8 s1) { busy8 with map := deviceMap }) ∧
    (samplePending (.pvs16 edge) (edgeAt deviceMap) ∧ meetsDevice (.pvs16 edge) (edgeAt deviceMap)) :=
  ⟨⟨by decide +kernel, .inl ⟨all_mem (by decide +kernel), 0x1001, by decide +kernel, by decide +kernel⟩⟩,
    by decide +kernel, .inr ⟨all_mem (by decide +kernel), all_mem (by decide +kernel), 0x1000, by decide +kernel,
    by decide +kernel⟩⟩

/-- At the thresholds: 50 is at the black point, 200 at the white point of S1; 100 / 50 is inverted. -/
theorem witness_ClampsGiveTargetBounds :
    ((50 : Byte).toNat ≤ (50 : Half).toNat) ∧
    ((50 : Half).toNat < (200 : Byte).toNat ∧ (200 : Half).toNat ≤ (200 : Byte).toNat) ∧
    ((50 : Half).toNat ≤ (100 : Half).toNat) := by decide

theorem witness_RemapStaysBelowDeviceRange :
    (0 < 1 ∧ 1 < 2 ∧ 2 ≤ 65535 ∧ 0 ≤ 65535) ∧ (0 < 65534 ∧ 65534 < 65535 ∧ 65535 ≤ 65535 ∧ 1 ≤ 65535) := by
  decide

/-- Identity operands of W = 8: the remap branch is not empty and lies between `TMIN` and `TMAX`. -/
theorem witness_StretchIsMonotone :
    ((0 : Half).toNat < (255 : Half).toNat ∧ (255 : Half).toNat ≤ 2 ^ 8) ∧
    ((0 : Half).toNat < (1 : Byte).toNat ∧ (1 : Byte).toNat ≤ (254 : Byte).toNat ∧
      (254 : Byte).toNat < (255 : Half).toNat) ∧
    ∀ v : Byte, (0 : Half).toNat < v.toNat → v.toNat < (255 : Half).toNat →
      (0 : Half).toNat ≤ (stretch v 0 255 0 255 255).toNat ∧
        (stretch v 0 255 0 255 255).toNat ≤ (255 : Half).toNat :=
  ⟨by decide, by decide, fun v _ _ => ⟨Nat.zero_le _, Nat.lt_succ_iff.1 (stretch v 0 255 0 255 255).isLt⟩⟩

/-- -0.0 and 1.0. -/
theorem witness_BypassIsUnobservable :
    (-32768 : Int).natAbs ≤ 65535 ∧ feq64 (valF64 0x8000000000000000) (toF64 0) = true ∧
      feq64 (valF64 0x3FF0000000000000) (toF64 1) = true := by decide +kernel

theorem witness_NonFiniteCoefficientsGiveZero :
    isFinite (valF64 0x7FF8000000000000) = false ∧ isFinite (valF64 0xFFF0000000000000) = false := by
  decide +kernel

theorem witness_WholeCoefficientsWrapAround :
    (200 : Int).natAbs ≤ 65535 ∧ (100 : Int).natAbs ≤ 2 ^ 53 ∧ (1 : Int).natAbs ≤ 2 ^ 53 ∧
      ((1 : Int) * 200).natAbs ≤ 2 ^ 53 ∧ ((100 : Int) + 1 * 200).natAbs ≤ 2 ^ 53 := by decide

theorem witness_BzeroConventionShiftsByHalf :
    (32768 + 65536 * (0 : Int)).natAbs ≤ 2 ^ 52 ∧ (32768 + 65536 * (-1 : Int)).natAbs ≤ 2 ^ 52 := by decide

/-- A tie: 2^53 + 1 between 2^53 and 2^53 + 2. -/
theorem witness_RoundingIsNearestEven :
    0 < 1 ∧ 2 ^ 52 + 1 < 2 ^ 53 ∧ 2 ^ 53 + 2 = (2 ^ 52 + 1) * 2 ^ 1 ∧ roundMag (2 ^ 53 + 1) 1 = 2 ^ 53 ∧
      ((roundMag (2 ^ 53 + 1) 1 * 1 : Nat) - (2 ^ 53 + 1 : Nat) : Int).natAbs =
        (((2 ^ 53 + 2) * 1 : Nat) - (2 ^ 53 + 1 : Nat) : Int).natAbs := by decide +kernel

/-- 1.0 and NaN are binary64 values. -/
theorem witness_ArithmeticStaysInBinary64 : (toF64 1).isBinary64 ∧ F64.nan.isBinary64 :=
  ⟨⟨by decide +kernel, 1, 1074, by norm_num, by decide +kernel⟩, trivial⟩

theorem witness_PackedPatternDenotesValue : (F64.fin true 3).isBinary64 :=
  ⟨by decide +kernel, 3, 0, by norm_num, rfl⟩

/-- The first and last sample of each range of R172. -/
theorem witness_IntegerModeByRanges :
    [(0 : Word), 65535, 65536, 0x00FFFFFF, 0x01000000, 0x7FFFFFFF, 0xFFFF8000, 0xFFFFFFFF, 0x80000000,
      0xFFFF7FFF].map BitVec.toInt =
      [0, 65535, 65536, 16777215, 16777216, 2147483647, -32768, -1, -2147483648, -32769] := by decide

theorem witness_OtherBppKeepsLowHalf : (16 : Word).toInt ≠ 32 ∧ (16 : Word).toInt ≠ -32 := by decide

/-- -0.5, 65535.8984375, 65536.0, NaN. -/
theorem witness_FloatModeTruncates :
    (∃ m, valF32 0xBF000000 = .fin true m ∧ m < f64One) ∧
    (∃ m, valF32 0x477FFFE6 = .fin false m ∧ m < 65536 * f64One) ∧
    (∃ m, valF32 0x47800000 = .fin false m ∧ ¬ m < 65536 * f64One) ∧ isFinite (valF32 0x7FC00000) = false := by
  refine ⟨⟨2 ^ 1073, ?_⟩, ⟨16777190 * 2 ^ 1066, ?_⟩, ⟨2 ^ 1090, ?_⟩, ?_⟩ <;> decide +kernel

/-- Rows 19, 20, 21 of V-32I. -/
theorem witness_GuardedSampleOutput :
    (p3.bpp.toInt = 32 ∧ 16777216 ≤ (0x01000000 : Word).toInt) ∧
    (p3.black.toNat < p3.tmax.toNat ∧ p3.white.toNat ≤ p3.tmax.toNat) ∧
    (let d := { p3 with tmax := 4095 }; d.black.toNat < d.tmax.toNat ∧ d.tmax.toNat < d.white.toNat) ∧
    (let d := { p3 with tmax := 4095, black := 5000 }; d.tmax.toNat ≤ d.black.toNat) := by decide

theorem witness_OnePatternThreeReadings : (0 : Word).toInt ≠ 32 ∧ (0 : Word).toInt ≠ -32 := by decide

theorem witness_ReadsAreLittleEndian :
    (∀ b ∈ byteAddrs 0xFFFFFFFF 2, accessible State.reset b) ∧
      ∀ b ∈ byteAddrs 0xFFFFFFFE 4, accessible State.reset b :=
  ⟨all_mem (by decide +kernel), all_mem (by decide +kernel)⟩

theorem witness_WriteThenReadReturnsValue :
    Memory.wf busy8.mem ∧ ∀ b ∈ byteAddrs 0x1001 2, accessible busy8 b :=
  ⟨by decide +kernel, all_mem (by decide +kernel)⟩

/-- With a sample in flight in ordinary memory, with one in unmapped memory, and with none. -/
theorem witness_ResetFromAnyState :
    (samplePending (.pvs8 s1) busy8 ∧ ∀ i, samplePending i busy8 → ¬ meetsDevice i busy8) ∧
    (let s : State := { busy8 with map := [] };
      samplePending (.pvs8 s1) s ∧ ∀ i, samplePending i s → ¬ meetsDevice i s) ∧
    (∀ i, samplePending i State.reset → ¬ meetsDevice i State.reset) ∧
    ∃ t, step { busy8 with inbox := [.reset] } = .next t := by
  refine ⟨⟨by decide +kernel, fun i _ => ?_⟩, ⟨by decide +kernel, fun i _ => ?_⟩, fun i h => absurd h.1.1 (by decide),
    exists_next (by decide +kernel)⟩
  · rintro (⟨-, b, -, hb⟩ | ⟨-, -, b, -, hb⟩) <;> cases hb
  · rintro (⟨-, b, -, hb⟩ | ⟨-, -, b, -, hb⟩) <;> cases hb

/-- With a sample in flight, with none left before completion, and after a host write. -/
theorem witness_ResetLeavesOldOrNewBytes :
    Memory.wf busy16.mem ∧ samplePending (.pvs16 p2) busy16 ∧
      (∃ t, step { busy16 with inbox := [.reset] } = .next t) ∧
      inExecution (.pvs16 p2) { busy16 with idx := 6 } ∧
      (∃ t, step { busy16 with idx := 6, inbox := [.reset] } = .next t) ∧
      (let s : State := { busy16 with hostWrote := [0x2000], inbox := [.reset] };
        inExecution (.pvs16 p2) s ∧ 0x3001 ∈ unspecifiedBytes (.pvs16 p2) s.hostWrote s.idx.toNat ∧
          accessible s 0x3001 ∧ ∃ t, step s = .next t) :=
  ⟨by decide +kernel, by decide +kernel, exists_next (by decide +kernel), by decide +kernel,
    exists_next (by decide +kernel), by decide +kernel, by decide +kernel, by decide +kernel,
    exists_next (by decide +kernel)⟩

theorem witness_OnlyResetLeavesHalted :
    (∃ t, step { State.reset with st := .halted, inbox := [.poke 0 1] } = .next t) ∧
      ∀ rest, [HostMove.poke 0 1] ≠ .reset :: rest := by
  refine ⟨exists_next (by decide +kernel), fun rest h => ?_⟩
  cases h

theorem witness_DescriptorIsWrittenByAcceptance :
    (∃ t, step busy8 = .next t) ∧ (∃ t, step { State.reset with inbox := [.reset] } = .next t) ∧
      ∃ t, step { State.reset with inbox := [.issue (encode (.pvs8 s1))] } = .next t :=
  ⟨exists_next (by decide +kernel), exists_next (by decide +kernel), exists_next (by decide +kernel)⟩

theorem witness_PlatformMapNeverChanges : ∃ t, step { busy8 with inbox := [.reset] } = .next t :=
  exists_next (by decide +kernel)

theorem witness_StatusReadsReturnRegisters :
    { busy8 with inbox := [.readReg .idx] }.inbox = .readReg .idx :: [] ∧ State.reset.st ≠ .busy := by
  decide +kernel

theorem witness_HostReadsOldOrNewByte :
    accessible busy8 0x1000 ∧ inExecution (.pvs8 s1) busy8 ∧ isDestByte (.pvs8 s1) 0x1000 = true ∧
      isDestByte (.pvs8 s1) 0x1003 = false ∧ State.reset.st ≠ .busy ∧ 0x1000 ∈ samplesAt (.pvs8 s1) 0x1000 := by
  decide +kernel

theorem witness_HostWriteOutsideTheCommand :
    Memory.wf busy8.mem ∧ accessible busy8 0x1003 ∧
      (∀ i, inExecution i busy8 → isSourceByte i 0x1003 = false ∧ isDestByte i 0x1003 = false) ∧
      (accessible State.reset 0x1000 ∧ ∀ i, ¬ inExecution i State.reset) := by
  refine ⟨by decide +kernel, by decide +kernel, fun i h => ?_, by decide +kernel, fun i h => absurd h.1 (by decide)⟩
  have hi := Laws.descriptorInstr_eq_some.2 h.2
  have : descriptorInstr busy8.desc = some (.pvs8 s1) := by decide +kernel
  rw [this] at hi
  cases hi
  decide +kernel

/-- A byte of a source sample of PVS32, and a byte of a destination sample of PVS16. -/
theorem witness_HostWriteInsideTheCommand :
    Memory.wf busy32.mem ∧ Memory.wf busy16.mem ∧ (accessible busy32 0x4017 ∧ inExecution (.pvs32 p3) busy32 ∧ isSourceByte (.pvs32 p3) 0x4017 = true) ∧
    (accessible busy16 0x3000 ∧ inExecution (.pvs16 p2) busy16 ∧ isDestByte (.pvs16 p2) 0x3000 = true) := by
  decide +kernel

theorem witness_StepKeepsInvariant : busy8.Inv ∧ ∃ t, step busy8 = .next t :=
  ⟨busy8_inv, exists_next (by decide +kernel)⟩

theorem witness_InvariantExcludesStuckEngine : busy8.Inv := busy8_inv

/-- P11: the buffer wraps past the top of the address space. -/
theorem witness_WholePvs8Command :
    let d : Operands := ⟨2, 0xFFFFFFFF, 0, 0, 0x3FF0000000000000, 50, 200, 0, 255, 255, 0⟩
    let s : State := { State.reset with inbox := [.issue (encode (.pvs8 d))] }
    Memory.wf s.mem ∧ s.st = .idle ∧ ∀ i : Nat, i < d.size.toNat → accessible s (d.src + BitVec.ofNat 32 i) := by
  decide +kernel

theorem witness_WholePvs16Command :
    let s : State := { State.reset with inbox := [.issue (encode (.pvs16 p2))] }
    Memory.wf s.mem ∧ s.st = .idle ∧
      (∀ k : Nat, k < 2 * p2.size.toNat →
        accessible s (p2.src + BitVec.ofNat 32 k) ∧ accessible s (p2.dst + BitVec.ofNat 32 k)) ∧
      ∀ k : Nat, k < 2 * p2.size.toNat → ∀ l : Nat, l < 2 * p2.size.toNat →
        p2.src + BitVec.ofNat 32 k ≠ p2.dst + BitVec.ofNat 32 l := by decide +kernel

theorem witness_WholePvs32Command :
    let s : State := { State.reset with inbox := [.issue (encode (.pvs32 p3))] }
    Memory.wf s.mem ∧ s.st = .idle ∧
      (∀ k : Nat, k < 4 * p3.size.toNat → accessible s (p3.src + BitVec.ofNat 32 k)) ∧
      (∀ k : Nat, k < 2 * p3.size.toNat → accessible s (p3.dst + BitVec.ofNat 32 k)) ∧
      ∀ k : Nat, k < 4 * p3.size.toNat → ∀ l : Nat, l < 2 * p3.size.toNat →
        p3.src + BitVec.ofNat 32 k ≠ p3.dst + BitVec.ofNat 32 l := by decide +kernel

/-- P5, in place, and PVS16 in place over a buffer that wraps past the top of the address space. -/
theorem witness_InPlaceCommandsUseOriginalSamples :
    (let d : Operands := ⟨4, 0x8000, 0x8000, 0, 0, 0, 65535, 0, 65535, 65535, 32⟩;
      Memory.wf State.reset.mem ∧ State.reset.st = .idle ∧ d.dst = d.src ∧ 4 * d.size.toNat ≤ 2 ^ 32 ∧
        ∀ k : Nat, k < 4 * d.size.toNat → accessible State.reset (d.src + BitVec.ofNat 32 k)) ∧
    (let d : Operands := ⟨2, 0xFFFFFFFE, 0xFFFFFFFE, 0, 0, 0, 65535, 0, 65535, 65535, 0⟩;
      d.dst = d.src ∧ 2 * d.size.toNat ≤ 2 ^ 32 ∧
        ∀ k : Nat, k < 2 * d.size.toNat → accessible State.reset (d.src + BitVec.ofNat 32 k)) := by
  decide +kernel

theorem witness_CommandEndsWithinSizePlusOne :
    busy8.Inv ∧ busy8.st = .busy ∧ busy8.inbox = [] ∧ ∀ a : Addr, isDevice busy8 a = false :=
  ⟨busy8_inv, rfl, rfl, fun _ => rfl⟩

/-- The core after reset, and the core after a completed command, presented with the same command. -/
theorem witness_OutcomeForgetsHistory :
    let s : State := { State.reset with inbox := [.issue (encode (.pvs8 s1))] }
    let s' : State := { s with done := true, idx := 6, desc := instrDescriptor (.pvs16 p2), bus := 7, fresh := 2 }
    s.Inv ∧ s'.Inv ∧ s.st = .idle ∧ s'.st = .idle ∧ s.mem = s'.mem ∧ s.map = s'.map ∧
      ∃ t, Sys2Proof.core.run (1 + 1) s = .next t := by
  refine ⟨by constructor <;> first | decide +kernel | exact no_writes rfl,
    by constructor <;> first | decide +kernel | exact no_writes rfl, rfl, rfl, rfl, rfl, ?_⟩
  exact exists_next (by decide +kernel)

end Sys2Proof.Tests
end

/-! The engine's state (10_state.md): which command a step runs, what a step writes, the invariant, and why the
outcome of a command forgets what the core did before. -/

namespace Sys2Proof.Proofs

open Sys2Proof Sys2Proof.Machine Sys2Proof.Laws

/-! ### What a command does in a state of each kind -/

/-- R36: the idle engine accepts. -/
theorem exec_of_idle (i : Instr) {s : State} (h : s.st = .idle) :
    exec i s = .next (accept (instrDescriptor i) s) := by
  rw [exec_eq_commandStep]
  simp only [commandStep, h]

/-- R37: the sample whose element rule answers its bytes is stored, and the index goes on. -/
theorem exec_of_elementOk {i : Instr} {s : State} {cells : List (Addr × Byte)} (h : samplePending i s)
    (hw : instrElement i s = .ok cells) : exec i s = .next { applySample cells s with idx := s.idx + 1 } := by
  simp only [exec_of_samplePending h, hw, sampleStep]

/-- R197: the sample that meets an unmapped byte enters the fault. -/
theorem exec_of_elementUnmapped {i : Instr} {s : State} {a : Addr} (h : samplePending i s)
    (hw : instrElement i s = .unmapped a) : exec i s = .next (raiseFault (.accessFault a) s) := by
  simp only [exec_of_samplePending h, hw, sampleStep]

/-- R38: the command whose samples are all processed completes. -/
theorem exec_of_allProcessed {i : Instr} {s : State} (h : inExecution i s) (hidx : s.idx = i.ops.size) :
    exec i s = .next (complete s) := by
  obtain ⟨hst, hd⟩ := h
  rw [exec_eq_commandStep]
  simp [commandStep, hst, hd, hidx]

/-- R34: a command that is not in execution has no effect on an engine that is not idle. -/
theorem exec_of_notAccepted {i : Instr} {s : State}
    (h : s.st = .halted ∨ (s.st = .busy ∧ s.desc ≠ instrDescriptor i)) : exec i s = .next s := by
  rw [exec_eq_commandStep]
  rcases h with hst | ⟨hst, hd⟩
  · simp only [commandStep, hst]
  · simp only [commandStep, hst, if_neg hd]

/-- A command stops with the model's fault only past its last sample. -/
theorem size_lt_idx_of_exec_fault {i : Instr} {s : State} {f : Fault} (h : exec i s = .fault f) :
    inExecution i s ∧ i.ops.size.toNat < s.idx.toNat := by
  have next_ne_fault {t : State} (e : exec i s = .next t) : False := by rw [e] at h; cases h
  cases hst : s.st with
  | idle => exact (next_ne_fault (exec_of_idle i hst)).elim
  | halted => exact (next_ne_fault (exec_of_notAccepted (.inl hst))).elim
  | busy =>
    by_cases hd : s.desc = instrDescriptor i
    · rcases lt_trichotomy s.idx.toNat i.ops.size.toNat with hlt | heq | hgt
      · rw [exec_of_samplePending ⟨⟨hst, hd⟩, hlt⟩] at h
        unfold sampleStep at h
        split at h <;> cases h
      · exact (next_ne_fault (exec_of_allProcessed ⟨hst, hd⟩ (BitVec.eq_of_toNat_eq heq))).elim
      · exact ⟨⟨hst, hd⟩, hgt⟩
    · exact (next_ne_fault (exec_of_notAccepted (.inr ⟨hst, hd⟩))).elim

/-- No command writes the host's moves, its bus or the counter of free values. -/
theorem exec_host_frame {i : Instr} {s t : State} (h : exec i s = .next t) :
    t.inbox = s.inbox ∧ t.bus = s.bus ∧ t.fresh = s.fresh := by
  rcases exec_next_cases h with ⟨-, rfl⟩ | ⟨_, -, -, -, -, rfl⟩ | ⟨_, -, -, -, -, rfl⟩ | ⟨-, -, -, rfl⟩ |
    ⟨-, -, rfl⟩ | ⟨-, rfl⟩ <;> exact ⟨rfl, rfl, rfl⟩

/-- The state with other moves of the host, another word on its bus and another counter of free values. -/
def withHost (s : State) (l : List HostMove) (b : Word) (n : Nat) : State :=
  { s with inbox := l, bus := b, fresh := n }

/-- No element rule looks at what `withHost` replaces. -/
theorem instrElement_withHost (i : Instr) (s : State) (l : List HostMove) (b : Word) (n : Nat) :
    instrElement i (withHost s l b n) = instrElement i s := by
  cases i <;> rfl

/-- Neither does a command: its step is the same, but for what is replaced. -/
theorem exec_withHost {i : Instr} {s t : State} (h : exec i s = .next t) (l : List HostMove) (b : Word) (n : Nat) :
    exec i (withHost s l b n) = .next (withHost t l b n) := by
  have helem := instrElement_withHost i s l b n
  rcases exec_next_cases h with ⟨hst, rfl⟩ | ⟨cells, hst, hd, hi, hw, rfl⟩ | ⟨a, hst, hd, hi, hw, rfl⟩ |
    ⟨hst, hd, hi, rfl⟩ | ⟨hst, hd, rfl⟩ | ⟨hst, rfl⟩
  · exact exec_of_idle i hst
  · exact exec_of_elementOk ⟨⟨hst, hd⟩, hi⟩ (helem.trans hw)
  · exact exec_of_elementUnmapped ⟨⟨hst, hd⟩, hi⟩ (helem.trans hw)
  · exact exec_of_allProcessed ⟨hst, hd⟩ hi
  · exact exec_of_notAccepted (.inr ⟨hst, hd⟩)
  · exact exec_of_notAccepted (.inl hst)

/-! ### Whose step it is -/

theorem step_of_noMove {s : State} (h : s.inbox = []) : step s = engineTurn s := by
  simp only [step, turn, h]

theorem step_of_waitingDescriptor {s : State} {raw : RawDesc} {rest : List HostMove}
    (hin : s.inbox = .issue raw :: rest) (hst : s.st ≠ .idle) : step s = engineTurn s := by
  simp [step, turn, hin, hostMustWait, hst]

theorem step_of_presented {s : State} {raw : RawDesc} {rest : List HostMove}
    (hin : s.inbox = .issue raw :: rest) (hst : s.st = .idle) : step s = issueTurn raw { s with inbox := rest } := by
  simp [step, turn, hin, hostMustWait, hst, hostTurn]

theorem step_of_otherMove {s : State} {m : HostMove} {rest : List HostMove}
    (hin : s.inbox = m :: rest) (hm : ∀ raw, m ≠ .issue raw) : step s = hostTurn m { s with inbox := rest } := by
  have hwait : hostMustWait m s = false := by
    cases m with
    | issue raw => exact absurd rfl (hm raw)
    | _ => rfl
  simp [step, turn, hin, hwait]

theorem issueTurn_of_legal {raw : RawDesc} {i : Instr} (h : decode raw = .ok i) (s : State) :
    issueTurn raw s = exec i s := by
  simp only [issueTurn, h]

theorem issueTurn_of_illegal {raw : RawDesc} {e : IllegalReason} (h : decode raw = .error e) (s : State) :
    issueTurn raw s = .next (raiseFault .illegalDescriptor s) := by
  simp only [issueTurn, h]

/-- R205, R199: with no command in execution the engine waits. -/
theorem engineTurn_of_not_busy {s : State} (h : s.st ≠ .busy) : engineTurn s = .next s := by
  cases hst : s.st with
  | busy => exact absurd hst h
  | _ => simp only [engineTurn, hst]

/-- Decoding gives an encoded command back. -/
theorem decode_encode (i : Instr) : decode (encode i) = .ok i := by
  obtain ⟨h0, h10⟩ := rawField_encode_reserved i
  simp [decode, h0, h10, rawDescriptor_encode]

/-! ### The invariant, operation by operation -/

/-- Settling a command that has ended closes the account of the host's writes. -/
theorem settle_hostWrote_of_ended {s : State} (hst : s.st ≠ .busy) (hd : s.desc.wellFormed) :
    (settle s).hostWrote = [] := by
  by_cases hw : s.hostWrote = []
  · rw [settle_of_nil hw, hw]
  · cases hi : descriptorInstr s.desc with
    | none => exact absurd (descriptorInstr_eq_none.1 hi) hd
    | some i => simp [settle, hst, hw, hi]

theorem inv_withHost {s : State} (h : s.Inv) (l : List HostMove) (b : Word) (n : Nat) : (withHost s l b n).Inv :=
  { h with }

theorem cause_of_not_halted {s : State} (h : s.Inv) (hst : s.st ≠ .halted) : s.cause = .none :=
  not_not.1 (mt h.haltedCause.2 hst)

theorem done_of_busy {s : State} (h : s.Inv) (hst : s.st = .busy) : s.done = false := by
  by_contra hd
  simpa [hst] using h.doneIdle (by simpa using hd)

theorem inv_accept (i : Instr) {s : State} (h : s.Inv) (hst : s.st = .idle) :
    (accept (instrDescriptor i) s).Inv := by
  have hc := cause_of_not_halted h (by simp [hst])
  exact {
    memWf := h.memWf
    atAcceptWf := h.memWf
    doneIdle := by simp
    doneIdx := by simp
    busyOpc := fun _ => instrDescriptor_wellFormed i
    busyIdx := by simp
    haltedCause := by simp [hc]
    faddrZero := h.faddrZero
    faultIdx := by simp [hc]
    idleWrote := by simp
    busyWrote := by simp }

/-- Outside `BUSY`, with no host write held, the invariant is about memory, `DONE` and the fault only. -/
theorem inv_of_not_busy {s : State} (hst : s.st ≠ .busy) (hwrote : s.hostWrote = []) (memWf : Memory.wf s.mem)
    (atAcceptWf : Memory.wf s.atAccept) (done : s.done = true → s.st = .idle ∧ s.idx = s.desc.ops.size)
    (haltedCause : s.st = .halted ↔ s.cause ≠ .none) (faddrZero : s.cause ≠ .accessFault → s.faddr = 0)
    (faultIdx : s.cause = .accessFault → s.desc.wellFormed ∧ s.idx.toNat < s.desc.ops.size.toNat) : s.Inv where
  memWf := memWf
  atAcceptWf := atAcceptWf
  doneIdle := fun h => (done h).1
  doneIdx := fun h => (done h).2
  busyOpc := fun h => absurd h hst
  busyIdx := fun h => absurd h hst
  haltedCause := haltedCause
  faddrZero := faddrZero
  faultIdx := faultIdx
  idleWrote := fun _ => hwrote
  busyWrote := by simp [hwrote]

theorem inv_raiseIllegal {s : State} (h : s.Inv) (hst : s.st = .idle) :
    (raiseFault .illegalDescriptor s).Inv := by
  have hc := cause_of_not_halted h (by simp [hst])
  exact inv_of_not_busy (by simp) (h.idleWrote (by simp [hst])) h.memWf h.atAcceptWf (by simp) (by simp)
    (fun _ => h.faddrZero (by simp [hc])) (by simp)

/-- A word below another does not pass it by one step (R24: `IDX` and `SIZE`, no wrap). -/
theorem toNat_succ_le_of_lt {x y : Word} (h : x.toNat < y.toNat) : (x + 1).toNat ≤ y.toNat := by
  have hy := y.isLt
  have h1 : (1 : Word).toNat = 1 := rfl
  rw [BitVec.toNat_add, h1]
  omega

/-- R37: a sample that is stored keeps the invariant. -/
theorem inv_sample {i : Instr} {s : State} (h : s.Inv) (hp : samplePending i s) (cells : List (Addr × Byte)) :
    State.Inv { applySample cells s with idx := s.idx + 1 } := by
  obtain ⟨⟨hst, hd⟩, hidx⟩ := hp
  have hc := cause_of_not_halted h (by simp [hst])
  have hdone := done_of_busy h hst
  exact { h with
    memWf := writeCells_wf h.memWf cells
    doneIdx := by simp [hdone]
    busyIdx := fun _ => toNat_succ_le_of_lt (by simpa [hd] using hidx)
    faultIdx := by simp [hc] }

/-- A command that has ended keeps the invariant once it is settled, if it does so but for the host's writes. -/
theorem inv_settle {s : State} (hst : s.st ≠ .busy) (hd : s.desc.wellFormed)
    (h : State.Inv { s with hostWrote := [] }) : (settle s).Inv :=
  inv_of_not_busy (by simpa using hst) (settle_hostWrote_of_ended hst hd) (settle_mem_wf h.memWf)
    (by simpa using h.atAcceptWf)
    (fun hdone => by
      rw [settle_done] at hdone
      simpa using And.intro (h.doneIdle hdone) (h.doneIdx hdone))
    (by simpa using h.haltedCause) (by simpa using h.faddrZero) (by simpa using h.faultIdx)

theorem inv_complete {i : Instr} {s : State} (h : s.Inv) (hx : inExecution i s) (hidx : s.idx = i.ops.size) :
    State.Inv { complete s with hostWrote := [] } := by
  obtain ⟨hst, hd⟩ := hx
  have hc := cause_of_not_halted h (by simp [hst])
  exact inv_of_not_busy (by simp) rfl h.memWf h.atAcceptWf (by simp [hd, hidx]) (by simp [hc]) h.faddrZero
    (by simp [hc])

theorem inv_raiseAccess {i : Instr} {s : State} (h : s.Inv) (hp : samplePending i s) (a : Addr) :
    State.Inv { raiseFault (.accessFault a) s with hostWrote := [] } := by
  obtain ⟨⟨hst, hd⟩, hidx⟩ := hp
  exact inv_of_not_busy (by simp) rfl h.memWf h.atAcceptWf (by simp) (by simp) (by simp)
    (fun _ => ⟨h.busyOpc hst, by simpa [hd] using hidx⟩)

theorem inv_engineTurn {s t : State} (h : s.Inv) (ht : engineTurn s = .next t) : t.Inv := by
  rcases engineTurn_next_cases ht with ⟨-, rfl⟩ | ⟨i, u, hst, hd, hu, rfl⟩
  · exact h
  · have hwf : s.desc.wellFormed := h.busyOpc hst
    rcases exec_next_cases hu with ⟨hidle, -⟩ | ⟨cells, -, -, hi, -, rfl⟩ | ⟨a, -, -, hi, -, rfl⟩ |
      ⟨-, -, hi, rfl⟩ | ⟨-, hne, -⟩ | ⟨hhalted, -⟩
    · simp [hst] at hidle
    · rw [settle_of_busy (by exact hst)]
      exact inv_sample h ⟨⟨hst, hd⟩, hi⟩ cells
    · exact inv_settle (by simp) hwf (inv_raiseAccess h ⟨⟨hst, hd⟩, hi⟩ a)
    · exact inv_settle (by simp) hwf (inv_complete h ⟨hst, hd⟩ hi)
    · exact absurd hd hne
    · simp [hst] at hhalted

theorem inv_issueTurn {raw : RawDesc} {s t : State} (h : s.Inv) (hst : s.st = .idle)
    (ht : issueTurn raw s = .next t) : t.Inv := by
  rcases issueTurn_next_cases ht with ⟨i, -, hi⟩ | ⟨e, -, rfl⟩
  · rw [exec_of_idle i hst] at hi
    cases hi
    exact inv_accept i h hst
  · exact inv_raiseIllegal h hst

/-- R220, R221: reset keeps the memory canonical and sets all else to what the invariant asks. -/
theorem inv_hostReset {s t : State} (h : s.Inv) (ht : hostReset s = .next t) : t.Inv := by
  obtain ⟨l, cells, rfl, -⟩ := hostReset_next_cases ht
  exact inv_of_not_busy (by simp) (by simp) (writeCells_wf (writeCells_wf h.memWf cells) _) h.atAcceptWf
    (by simp) (by simp) (by simp) (by simp)

/-- A byte of the command in execution is a byte its operation reads or writes; there is none outside `BUSY`. -/
theorem inCommand_cases {s : State} {a : Addr} (h : inCommand s a = true) :
    ∃ i, inExecution i s ∧ (isSourceByte i a = true ∨ isDestByte i a = true) := by
  unfold inCommand currentInstr at h
  split at h
  · rename_i i hi
    by_cases hst : s.st = .busy
    · rw [if_pos hst] at hi
      exact ⟨i, ⟨hst, descriptorInstr_eq_some.1 hi⟩, by simpa using h⟩
    · simp [hst] at hi
  · cases h

/-- R64: a host write is held against the command in execution only, and only if it is to a byte of it. -/
theorem inv_hostWrite {s t : State} {a : Addr} {v : Byte} (h : s.Inv) (ht : hostWrite a v s = .next t) : t.Inv := by
  obtain ⟨-, -, rfl⟩ := hostWrite_next_cases ht
  cases hin : inCommand s a with
  | false => exact { h with memWf := writeByte_wf h.memWf a v }
  | true =>
    obtain ⟨i, ⟨hst, hd⟩, hbyte⟩ := inCommand_cases hin
    exact { h with
      memWf := writeByte_wf h.memWf a v
      idleWrote := fun hne => absurd hst hne
      busyWrote := fun j hj b hb => by
        obtain rfl : j = i := by
          simpa using congrArg descriptorInstr (hj.symm.trans hd)
        rcases List.mem_cons.1 hb with rfl | hb
        · exact hbyte
        · exact h.busyWrote j hj b hb }

theorem inv_hostTurn {m : HostMove} {s t : State} (h : s.Inv) (hm : ∀ raw, m ≠ .issue raw)
    (ht : hostTurn m s = .next t) : t.Inv := by
  cases m with
  | issue raw => exact absurd rfl (hm raw)
  | reset => exact inv_hostReset h ht
  | poke a v => exact inv_hostWrite h ht
  | peek a => cases hostRead_next_cases ht; exact inv_withHost h _ _ _
  | readReg r => cases ht; exact inv_withHost h _ _ _
  | wait => exact inv_engineTurn h ht

/-- Settles O53: the engine's turns, the issue of a descriptor and the host's other moves each keep the invariant. -/
theorem stepKeepsInvariant : Obligations.StepKeepsInvariant := by
  intro s t h ht
  rcases step_cases s with ⟨-, e⟩ | ⟨_, _, -, -, e⟩ | ⟨_, rest, -, hst, e⟩ | ⟨m, rest, -, hm, e⟩ <;> rw [e] at ht
  · exact inv_engineTurn h ht
  · exact inv_engineTurn h ht
  · exact inv_issueTurn (inv_withHost h rest s.bus s.fresh) hst ht
  · exact inv_hostTurn (inv_withHost h rest s.bus s.fresh) hm ht

/-! ### No stuck engine -/

theorem exec_ne_fault {i : Instr} {s : State} (h : s.Inv) (f : Fault) : exec i s ≠ .fault f := by
  intro e
  obtain ⟨⟨hst, hd⟩, hlt⟩ := size_lt_idx_of_exec_fault e
  have hle := h.busyIdx hst
  rw [hd, instrDescriptor_ops] at hle
  exact absurd hle (not_le.2 hlt)

theorem engineTurn_ne_fault {s : State} (h : s.Inv) (f : Fault) : engineTurn s ≠ .fault f := by
  by_cases hst : s.st = .busy
  · cases hi : descriptorInstr s.desc with
    | none => exact absurd (descriptorInstr_eq_none.1 hi) (h.busyOpc hst)
    | some i =>
      rw [engineTurn_busy hst (descriptorInstr_eq_some.1 hi)]
      cases e : exec i s with
      | fault g => exact absurd e (exec_ne_fault h g)
      | _ => simp [settled]
  · simp [engineTurn_of_not_busy hst]

theorem issueTurn_ne_fault {s : State} (h : s.Inv) (raw : RawDesc) (f : Fault) : issueTurn raw s ≠ .fault f := by
  cases hdec : decode raw with
  | ok i => rw [issueTurn_of_legal hdec]; exact exec_ne_fault h f
  | error e => simp [issueTurn_of_illegal hdec]

/-- A host's move ends in the model's fault only where the turn it gives to the engine does. -/
theorem hostTurn_ne_fault {s : State} (h : s.Inv) (m : HostMove) (f : Fault) : hostTurn m s ≠ .fault f := by
  cases m with
  | issue raw => exact issueTurn_ne_fault h raw f
  | reset => simp only [hostTurn, hostReset]; split <;> simp
  | poke a v => simp only [hostTurn, hostWrite]; split_ifs <;> simp
  | peek a => simp only [hostTurn, hostRead]; split_ifs <;> simp
  | readReg r => simp [hostTurn]
  | wait => exact engineTurn_ne_fault h f

/-- Settles O54: in `BUSY` the invariant gives the engine an operation in `DESC` and an index not past `SIZE`. -/
theorem invariantExcludesStuckEngine : Obligations.InvariantExcludesStuckEngine := by
  intro s f h
  rcases step_cases s with ⟨-, e⟩ | ⟨_, _, -, -, e⟩ | ⟨raw, rest, -, -, e⟩ | ⟨m, rest, -, -, e⟩ <;> rw [e]
  · exact engineTurn_ne_fault h f
  · exact engineTurn_ne_fault h f
  · exact issueTurn_ne_fault (inv_withHost h rest s.bus s.fresh) raw f
  · exact hostTurn_ne_fault (inv_withHost h rest s.bus s.fresh) m f

/-! ### After reset -/

/-- Settles O52: nothing is done, no fault is recorded and the memory is empty. -/
theorem invariantHoldsAtReset : Obligations.InvariantHoldsAtReset :=
  inv_of_not_busy (by decide) rfl reset_mem_wf reset_mem_wf (by decide) (by decide) (fun _ => rfl) (by decide)

/-- A core that executes no command and has no move of the host before it never changes (R199, R205). -/
theorem run_of_quiet {s : State} (hst : s.st ≠ .busy) (hin : s.inbox = []) (n : Nat) :
    Sys2Proof.core.run n s = .next s := by
  have hstep : Sys2Proof.core.step s = .next s := (step_of_noMove hin).trans (engineTurn_of_not_busy hst)
  induction n with
  | zero => rfl
  | succ n ih => simpa only [Host.Core.run, hstep] using ih

/-- Settles O42: the values stand in `State.reset`, and a quiet core stays as it is. -/
theorem resetStateValues : Obligations.ResetStateValues :=
  ⟨rfl, rfl, rfl, rfl, rfl, rfl, by decide, run_of_quiet (by decide) rfl⟩

/-! ### Acceptance, completion, and the command a step runs -/

/-- Settles O7: it is `accept`, written out. -/
theorem acceptanceLatchesCommand : Obligations.AcceptanceLatchesCommand :=
  fun i _ hst => exec_of_idle i hst

/-- Settles O14: it is `complete`, written out. -/
theorem completionReturnsToIdle : Obligations.CompletionReturnsToIdle :=
  fun _ _ hx hidx => exec_of_allProcessed hx hidx

/-- Settles O6: a presented descriptor is issued to the idle engine; the engine's turn is the command's in `DESC`. -/
theorem stepRunsTheDecodedCommand : Obligations.StepRunsTheDecodedCommand := by
  intro s i
  refine ⟨fun raw rest hst hin hdec => ?_, fun hx hin => ?_, fun raw rest hx hin => ?_, fun rest hx hin => ?_,
    fun hx hwrote => ?_⟩
  · rw [step_of_presented hin hst, issueTurn_of_legal hdec]
  · rw [step_of_noMove hin, engineTurn_busy hx.1 hx.2]
  · rw [step_of_waitingDescriptor hin (by simp [hx.1]), engineTurn_busy hx.1 hx.2]
  · rw [step_of_otherMove hin (by simp), hostTurn]
    exact engineTurn_busy hx.1 hx.2
  · rw [← engineTurn_busy hx.1 hx.2, engineTurn_of_nil hx.1 hx.2 hwrote]

/-! ### A descriptor outside `IDLE`, and what writes `DESC` -/

/-- Settling does not look at the host's moves. -/
theorem settle_withHost (s : State) (l : List HostMove) :
    settle (withHost s l s.bus s.fresh) = withHost (settle s) l (settle s).bus (settle s).fresh := by
  by_cases hkept : s.st = .busy ∨ s.hostWrote = []
  · simp only [settle, withHost, hkept, if_true]
  · cases hi : descriptorInstr s.desc with
    | none => simp only [settle, withHost, hkept, if_false, hi]
    | some i => simp only [settle, withHost, hkept, if_false, hi]; rfl

/-- The engine's turn leaves the host's moves alone, and is the same whatever they are. -/
theorem engineTurn_inbox {s t : State} (h : engineTurn s = .next t) (l : List HostMove) :
    t.inbox = s.inbox ∧ engineTurn { s with inbox := l } = .next { t with inbox := l } := by
  rcases engineTurn_next_cases h with ⟨hst, rfl⟩ | ⟨i, u, hst, hd, hu, rfl⟩
  · exact ⟨rfl, engineTurn_of_not_busy hst⟩
  · obtain ⟨hin, hbus, hfresh⟩ := exec_host_frame hu
    have hexec : exec i { s with inbox := l } = .next (withHost u l u.bus u.fresh) := by
      rw [hbus, hfresh]
      exact exec_withHost hu l s.bus s.fresh
    refine ⟨(settle_inbox u).trans hin, ?_⟩
    rw [engineTurn_busy (by exact hst) (by exact hd), hexec, settled, settle_withHost]
    rfl

/-- R35, R36: a descriptor presented to the idle engine is accepted or faults. -/
theorem issueTurn_of_idle (raw : RawDesc) {s : State} (hst : s.st = .idle) :
    ∃ t, issueTurn raw s = .next t ∧ t.inbox = s.inbox ∧ t.st ≠ .idle := by
  cases hdec : decode raw with
  | ok i => exact ⟨_, (issueTurn_of_legal hdec s).trans (exec_of_idle i hst), rfl, by simp⟩
  | error e => exact ⟨_, issueTurn_of_illegal hdec s, rfl, by simp⟩

/-- Settles O8: outside `IDLE` the step is the engine's turn, which does not look at the host's moves. -/
theorem presentedDescriptorHasNoEffect : Obligations.PresentedDescriptorHasNoEffect := by
  refine ⟨fun s raw rest hst hin t ht => ?_, fun i s h => exec_of_notAccepted h, fun s raw rest hst hin => ?_⟩
  · rw [step_of_waitingDescriptor hin hst] at ht
    obtain ⟨hkeep, hturn⟩ := engineTurn_inbox ht []
    exact ⟨hkeep, (step_of_noMove rfl).trans hturn⟩
  · rw [step_of_presented hin hst]
    exact issueTurn_of_idle raw hst

/-- R23: outside `IDLE` a command leaves `DESC` as it was. -/
theorem exec_desc {i : Instr} {s t : State} (h : exec i s = .next t) (hst : s.st ≠ .idle) : t.desc = s.desc := by
  rcases exec_next_cases h with ⟨hidle, -⟩ | ⟨_, -, -, -, -, rfl⟩ | ⟨_, -, -, -, -, rfl⟩ | ⟨-, -, -, rfl⟩ |
    ⟨-, -, rfl⟩ | ⟨-, rfl⟩
  · exact absurd hidle hst
  all_goals rfl

theorem engineTurn_desc {s t : State} (h : engineTurn s = .next t) : t.desc = s.desc := by
  rcases engineTurn_next_cases h with ⟨-, rfl⟩ | ⟨i, u, hst, -, hu, rfl⟩
  · rfl
  · rw [settle_desc, exec_desc hu (by simp [hst])]

theorem hostTurn_desc {m : HostMove} {s t : State} (h : hostTurn m s = .next t) (hm : ∀ raw, m ≠ .issue raw)
    (hreset : m ≠ .reset) : t.desc = s.desc := by
  cases m with
  | issue raw => exact absurd rfl (hm raw)
  | reset => exact absurd rfl hreset
  | poke a v => obtain ⟨-, -, rfl⟩ := hostWrite_next_cases h; rfl
  | peek a => rw [hostRead_next_cases h]
  | readReg r => cases h; rfl
  | wait => exact engineTurn_desc h

/-- Settles O46: only acceptance and reset write `DESC`, among the engine's turns and the host's moves. -/
theorem descriptorIsWrittenByAcceptance : Obligations.DescriptorIsWrittenByAcceptance := by
  intro s t ht
  rcases step_cases s with ⟨-, e⟩ | ⟨_, _, -, -, e⟩ | ⟨raw, rest, hin, hst, e⟩ | ⟨m, rest, hin, hm, e⟩ <;> rw [e] at ht
  · exact .inl (engineTurn_desc ht)
  · exact .inl (engineTurn_desc ht)
  · rcases issueTurn_next_cases ht with ⟨i, hdec, hi⟩ | ⟨_, -, rfl⟩
    · rw [exec_of_idle i (by exact hst)] at hi
      cases hi
      exact .inr (.inr ⟨raw, rest, i, hst, hin, hdec, rfl⟩)
    · exact .inl rfl
  · by_cases hreset : m = .reset
    · exact .inr (.inl ⟨rest, hreset ▸ hin⟩)
    · exact .inl (hostTurn_desc (s := { s with inbox := rest }) ht hm hreset)

/-! ### The status registers -/

/-- Settles O48: the step is `hostReadReg`. -/
theorem statusReadsReturnRegisters : Obligations.StatusReadsReturnRegisters := by
  intro s r rest hin
  refine ⟨hostRegValue r { s with inbox := rest }, step_of_otherMove hin (by simp), ?_, ?_, ?_⟩
  · rintro rfl; rfl
  · rintro hst rfl; exact if_neg hst
  · rintro hst rfl; exact if_neg hst

/-- The fields of a word made of `CAUSE`'s code and the three bits below it, as R27 lays them out. -/
theorem statusFields_append (c : BitVec 2) (halted done busy : Bool) :
    let w : Word := (0 : BitVec 27) ++ c ++ BitVec.ofBool halted ++ BitVec.ofBool done ++ BitVec.ofBool busy
    w.getLsbD 0 = busy ∧ w.getLsbD 1 = done ∧ w.getLsbD 2 = halted ∧ w.extractLsb' 3 2 = c ∧
      w.extractLsb' 5 27 = 0 := by
  revert c halted done busy
  decide

/-- R27's fields of `STATUS`. -/
theorem statusWord_fields (s : State) :
    (statusWord s).getLsbD 0 = busyBit s ∧ (statusWord s).getLsbD 1 = s.done ∧
      (statusWord s).getLsbD 2 = haltedBit s ∧ (statusWord s).extractLsb' 3 2 = causeCode s.cause ∧
      (statusWord s).extractLsb' 5 27 = 0 :=
  statusFields_append (causeCode s.cause) (haltedBit s) s.done (busyBit s)

theorem causeCode_eq_iff (c : Cause) :
    (causeCode c = 0#2 ↔ c = .none) ∧ (causeCode c = 1#2 ↔ c = .illegalDescriptor) ∧
      (causeCode c = 2#2 ↔ c = .accessFault) := by
  cases c <;> decide

/-- Settles O41: R27's fields, and the codes of R191, one for each cause. -/
theorem statusWordLayout : Obligations.StatusWordLayout := by
  intro s
  obtain ⟨hbusy, hdone, hhalted, hcause, hzero⟩ := statusWord_fields s
  obtain ⟨hnone, hillegal, haccess⟩ := causeCode_eq_iff s.cause
  have hhalted' : (statusWord s).getLsbD 2 = true ↔ s.st = .halted := hhalted ▸ decide_eq_true_iff
  rw [hcause]
  exact ⟨hbusy ▸ decide_eq_true_iff, hdone, hhalted', hnone, hillegal, haccess, hzero, hdone, hhalted'⟩

/-! ### The outcome of a command forgets the core's history -/

/-- With no host write held, the engine's turn is the same whatever the host's moves, its bus and the counter of
free values are; it leaves the host's moves alone and holds no write. -/
theorem engineTurn_withHost {s t : State} (hwrote : s.hostWrote = []) (h : engineTurn s = .next t)
    (l : List HostMove) (b : Word) (n : Nat) :
    t.inbox = s.inbox ∧ t.hostWrote = [] ∧ engineTurn (withHost s l b n) = .next (withHost t l b n) := by
  rcases engineTurn_next_cases h with ⟨hst, rfl⟩ | ⟨i, -, hst, hd, -, -⟩
  · exact ⟨rfl, hwrote, engineTurn_of_not_busy hst⟩
  · rw [engineTurn_of_nil hst hd hwrote] at h
    refine ⟨(exec_host_frame h).1, (exec_hostWrote h (by simp [hst])).trans hwrote, ?_⟩
    rw [engineTurn_of_nil (by exact hst) (by exact hd) (by exact hwrote)]
    exact exec_withHost h l b n

/-- So is a run of engine turns. -/
theorem run_withHost {s t : State} (hin : s.inbox = []) (hwrote : s.hostWrote = []) (b : Word) (k n : Nat)
    (h : Sys2Proof.core.run n s = .next t) :
    Sys2Proof.core.run n (withHost s [] b k) = .next (withHost t [] b k) := by
  induction n generalizing s with
  | zero => cases h; rfl
  | succ n ih =>
    have hstep : Sys2Proof.core.step s = engineTurn s := step_of_noMove hin
    have hstep' : Sys2Proof.core.step (withHost s [] b k) = engineTurn (withHost s [] b k) :=
      step_of_noMove (s := withHost s [] b k) rfl
    cases hu : engineTurn s with
    | next u =>
      obtain ⟨hin', hwrote', hturn⟩ := engineTurn_withHost hwrote hu [] b k
      simp only [Host.Core.run, hstep, hu] at h
      simp only [Host.Core.run, hstep', hturn]
      exact ih (hin'.trans hin) hwrote' h
    | fault f => simp [Host.Core.run, hstep, hu] at h
    | refused r => simp [Host.Core.run, hstep, hu] at h

/-- R36: the step that accepts an encoded command. -/
theorem step_accepts_encode {i : Instr} {s : State} (hst : s.st = .idle) (hin : s.inbox = [.issue (encode i)]) :
    step s = .next (accept (instrDescriptor i) { s with inbox := [] }) := by
  rw [step_of_presented hin hst, issueTurn_of_legal (decode_encode i)]
  exact exec_of_idle i hst

/-- After acceptance, two idle cores with one memory and one map differ in the host's bus and the counter of free
values only: the invariant fixes `CAUSE` and `FADDR` in `IDLE`, acceptance writes the rest. -/
theorem accept_eq_withHost {s s' : State} (h : s.Inv) (h' : s'.Inv) (hst : s.st = .idle) (hst' : s'.st = .idle)
    (hmem : s.mem = s'.mem) (hmap : s.map = s'.map) (c : Descriptor) :
    accept c { s' with inbox := [] } = withHost (accept c { s with inbox := [] }) [] s'.bus s'.fresh := by
  have hc := cause_of_not_halted h (by simp [hst])
  have hc' := cause_of_not_halted h' (by simp [hst'])
  have hf := h.faddrZero (by simp [hc])
  have hf' := h'.faddrZero (by simp [hc'])
  simp only [accept, withHost, hc, hc', hf, hf', hmem, hmap]

/-- Settles O60: acceptance makes the two cores equal but for the host's bus and the counter of free values, and no
step of a command looks at these. -/
theorem outcomeForgetsHistory : Obligations.OutcomeForgetsHistory := by
  intro i s s' n h h' hst hst' hin hin' hmem hmap t ht
  have hstep : Sys2Proof.core.step s = _ := step_accepts_encode hst hin
  have hstep' : Sys2Proof.core.step s' = _ := step_accepts_encode hst' hin'
  simp only [Host.Core.run, hstep] at ht
  refine ⟨withHost t [] s'.bus s'.fresh, ?_, rfl, rfl, rfl, rfl, rfl, rfl, rfl⟩
  simp only [Host.Core.run, hstep', accept_eq_withHost h h' hst hst' hmem hmap]
  exact run_withHost rfl rfl s'.bus s'.fresh n ht

end Sys2Proof.Proofs

/-! Memory (20_memory.md): addresses, accesses, what a command may change, the host's bytes, and a whole command as
the store of its samples one after the other. -/

namespace Sys2Proof.Proofs

open Sys2Proof Sys2Proof.Machine Sys2Proof.Laws

/-! ### Addresses (R53) -/

/-- Sample `k` lies `es * k` bytes after the base. -/
theorem effAddr_ofNat (base : Addr) (k es : Nat) :
    effAddr base (BitVec.ofNat 32 k) es = base + BitVec.ofNat 32 (es * k) := by
  rw [effAddr, ← BitVec.ofNat_mul, mul_comm]

theorem mem_byteAddrs {a b : Addr} {n : Nat} : b ∈ byteAddrs a n ↔ ∃ t < n, b = a + BitVec.ofNat 32 t := by
  simp only [byteAddrs, List.mem_map, List.mem_range, eq_comm]

/-- A byte of sample `k` of a buffer, by its distance from the base. -/
theorem mem_sampleBytes {base b : Addr} {k es : Nat} :
    b ∈ byteAddrs (effAddr base (BitVec.ofNat 32 k) es) es ↔
      ∃ t < es, b = base + BitVec.ofNat 32 (es * k + t) := by
  simp only [mem_byteAddrs, effAddr_ofNat, BitVec.add_assoc, ← BitVec.ofNat_add]

/-- Two bytes at different distances below 2^32 from one base are different. -/
theorem add_ofNat_inj {base : Addr} {x y : Nat} (hx : x < 2 ^ 32) (hy : y < 2 ^ 32)
    (h : base + BitVec.ofNat 32 x = base + BitVec.ofNat 32 y) : x = y := by
  have hxy := congrArg BitVec.toNat (BitVec.add_right_inj base |>.1 h)
  rwa [BitVec.toNat_ofNat, BitVec.toNat_ofNat, Nat.mod_eq_of_lt hx, Nat.mod_eq_of_lt hy] at hxy

theorem effAddr_toNat (base : Addr) (i : Word) (es : Nat) :
    (effAddr base i es).toNat = (base.toNat + i.toNat * es) % 2 ^ 32 := by
  simp [effAddr]

/-- Settles O38: the sum and the product of 32-bit words wrap. -/
theorem effectiveAddressWraps : Obligations.EffectiveAddressWraps := by
  intro base i es n
  refine ⟨effAddr_toNat base i es, ?_⟩
  simp [byteAddrs, Function.comp_def, effAddr_toNat]

/-! ### Reads and writes (R52, R54, R55) -/

theorem memRead_of_accessible {s : State} {a : Addr} {n : Nat} (h : ∀ b ∈ byteAddrs a n, accessible s b) :
    memRead s a n = .ok (readLE s.mem a n) := by
  simp only [memRead, checkAccess_ok.2 h, Access.andThen]

theorem memWrite_of_accessible {w : Nat} {s : State} {a : Addr} (v : BitVec w)
    (h : ∀ b ∈ byteAddrs a (w / 8), accessible s b) : memWrite s a v = .ok (cellsLE a v) := by
  simp only [memWrite, checkAccess_ok.2 h, Access.andThen]

theorem toNat_append_byte {w : Nat} (x : BitVec w) (y : Byte) : (x ++ y).toNat = y.toNat + 256 * x.toNat := by
  rw [BitVec.toNat_append, ← Nat.shiftLeft_add_eq_or_of_lt y.isLt, Nat.shiftLeft_eq]
  omega

/-- The number two bytes hold is their concatenation, the higher address first (R52). -/
theorem readLE_two (m : Memory) (a : Addr) :
    readLE m a 2 = (readByte m (a + 1) ++ readByte m a : Half).toNat := by
  simp [toNat_append_byte, readLE]

/-- So is the number four bytes hold (R52). -/
theorem readLE_four (m : Memory) (a : Addr) :
    readLE m a 4 =
      (readByte m (a + 3) ++ readByte m (a + 2) ++ readByte m (a + 1) ++ readByte m a : Word).toNat := by
  simp [toNat_append_byte, readLE, BitVec.add_assoc]

/-- Settles O39: an accessible read answers `readLE`, the sum of R54. -/
theorem readsAreLittleEndian : Obligations.ReadsAreLittleEndian := by
  intro s a
  refine ⟨fun h => ?_, fun h => ?_⟩
  · rw [memRead_of_accessible h, readLE_two, toNat_append_byte]
  · rw [memRead_of_accessible h, readLE_four]
    simp only [toNat_append_byte]
    congr 1
    omega

/-- What is read depends on the bytes of the read only. -/
theorem readLE_congr {m m' : Memory} {a : Addr} {n : Nat}
    (h : ∀ b ∈ byteAddrs a n, readByte m b = readByte m' b) : readLE m a n = readLE m' a n := by
  induction n generalizing a with
  | zero => rfl
  | succ n ih =>
    have htail : ∀ b ∈ byteAddrs (a + 1) n, readByte m b = readByte m' b := fun b hb => by
      obtain ⟨t, ht, rfl⟩ := mem_byteAddrs.1 hb
      refine h _ (mem_byteAddrs.2 ⟨t + 1, by omega, ?_⟩)
      rw [BitVec.add_assoc, Nat.add_comm t, BitVec.ofNat_add]
      rfl
    rw [readLE, readLE, ih htail, h a (mem_byteAddrs.2 ⟨0, by omega, by simp⟩)]

/-- Bytes that hold the cells of a 16-bit value hold the value (R52). -/
theorem readHalf_of_cells {m : Memory} {a : Addr} {v : Half} (h : ∀ c ∈ cellsLE a v, readByte m c.1 = c.2) :
    (readByte m (a + 1) ++ readByte m a : Half) = v := by
  have hlow : readByte m a = v.extractLsb' 0 8 := h (a, v.extractLsb' 0 8) (by simp [cellsLE_16])
  have hhigh : readByte m (a + 1) = v.extractLsb' 8 8 := h (a + 1, v.extractLsb' 8 8) (by simp [cellsLE_16])
  rw [hlow, hhigh]
  exact (BitVec.extractLsb'_append_extractLsb'_eq_extractLsb' (start₁ := 0) rfl).trans BitVec.extractLsb'_eq_self

/-- A 16-bit value stored reads back at its two bytes (R55). -/
theorem readHalf_writeCells {m : Memory} (hm : Memory.wf m) (a : Addr) (v : Half) :
    (readByte (writeCells m (cellsLE a v)) (a + 1) ++ readByte (writeCells m (cellsLE a v)) a : Half) = v :=
  readHalf_of_cells fun _ hc => readByte_writeCells_mem hm (by simp [byteAddrs_two]) hc

/-- Storing a value leaves the bytes outside its own alone (R55). -/
theorem readByte_writeCells_cellsLE_ne {w : Nat} (m : Memory) {a b : Addr} (v : BitVec w)
    (h : b ∉ byteAddrs a (w / 8)) : readByte (writeCells m (cellsLE a v)) b = readByte m b :=
  readByte_writeCells_ne m _ (by simpa using h)

/-- Settles O40: the cells are `cellsLE`, whose bytes are apart and put together give the value. -/
theorem writeThenReadReturnsValue : Obligations.WriteThenReadReturnsValue := by
  intro s a v hwf hacc
  refine ⟨cellsLE a v, memWrite_of_accessible v hacc, ?_, fun b hb => readByte_writeCells_cellsLE_ne s.mem v hb⟩
  rw [memRead_of_accessible (by exact hacc), readLE_two, readHalf_writeCells hwf]

/-! ### A sample that meets an unmapped byte, or device memory (R51, R54, R55) -/

/-- The first unmapped byte of the source, or of the destination where the source is accessible, is what the element
rule answers. -/
theorem instrElement_of_unmapped {i : Instr} {s : State} {a : Addr}
    (h : (sourceBytes i s.idx).find? (fun b => !mapped s b) = some a ∨
      ((∀ b ∈ sourceBytes i s.idx, accessible s b) ∧
        (destBytes i s.idx).find? (fun b => !mapped s b) = some a)) : instrElement i s = .unmapped a := by
  obtain ⟨w, f, hw, he⟩ := instrElement_shape i s
  rw [he]
  rcases h with h | ⟨hs, h⟩
  · exact element_of_source_unmapped h
  · exact element_of_dest_unmapped hs (by rw [hw]; exact h)

/-- Settles O13: the element rule answers the unmapped byte, and the sample step enters the fault with it. -/
theorem firstUnmappedByteFaults : Obligations.FirstUnmappedByteFaults :=
  fun _ _ _ hp h => exec_of_elementUnmapped hp (instrElement_of_unmapped h)

/-- An access to mapped bytes one of which is device memory stops there (R51). -/
theorem checkAccess_of_device {s : State} {a : Addr} {n : Nat} (hmapped : ∀ b ∈ byteAddrs a n, mapped s b = true)
    (hdevice : ∃ b ∈ byteAddrs a n, isDevice s b = true) : ∃ b, checkAccess s a n = .device b := by
  rcases checkAccess_cases s a n with ⟨-, hok⟩ | ⟨b, -, hb, hun⟩ | ⟨b, hdev, -⟩
  · obtain ⟨b, hb, hdev⟩ := hdevice
    simp [(hok b hb).2] at hdev
  · simp [hmapped b hb] at hun
  · exact ⟨b, hdev⟩

/-- An element rule that meets device memory, in its read or in its write, stops there. -/
theorem instrElement_of_meetsDevice {i : Instr} {s : State} (h : meetsDevice i s) :
    ∃ b, instrElement i s = .device b := by
  obtain ⟨w, f, hw, he⟩ := instrElement_shape i s
  rcases h with ⟨hmapped, hdevice⟩ | ⟨hs, hmapped, hdevice⟩
  · obtain ⟨b, hb⟩ := checkAccess_of_device hmapped hdevice
    exact ⟨b, by simp only [he, element, memRead, hb, Access.andThen]⟩
  · obtain ⟨b, hb⟩ := checkAccess_of_device hmapped hdevice
    exact ⟨b, by simp only [he, element, memRead_of_accessible hs, memWrite, hw, hb, Access.andThen]⟩

/-- Settles O17: the element rule stops at device memory, and the sample step refuses it. -/
theorem deviceMemoryIsRefused : Obligations.DeviceMemoryIsRefused := by
  intro i s hp h
  obtain ⟨b, hb⟩ := instrElement_of_meetsDevice h
  rw [exec_of_samplePending hp, hb]
  rfl

/-! ### What a command changes (R57) -/

/-- A sample that is stored changes its destination bytes only. -/
theorem readByte_applySample_ne {i : Instr} {s : State} {cells : List (Addr × Byte)} {a : Addr}
    (hw : instrElement i s = .ok cells) (ha : a ∉ destBytes i s.idx) :
    readByte (applySample cells s).mem a = readByte s.mem a := by
  have haddrs : cells.map Prod.fst = destBytes i s.idx := by
    rcases instrElement_cases i s with ⟨_, hw', haddrs, -⟩ | ⟨_, hw', -⟩ | ⟨_, hw', -⟩
    · cases hw.symm.trans hw'; exact haddrs
    · cases hw.symm.trans hw'
    · cases hw.symm.trans hw'
  exact readByte_writeCells_ne _ _ (haddrs ▸ ha)

/-- Settles O15: acceptance, a sample, a fault, completion and no effect, each by what it writes. -/
theorem commandStepFrame : Obligations.CommandStepFrame := by
  intro i s t h
  rcases exec_next_cases h with ⟨hst, rfl⟩ | ⟨cells, hst, hd, hidx, hw, rfl⟩ | ⟨a, hst, -, -, -, rfl⟩ |
    ⟨hst, -, -, rfl⟩ | ⟨-, -, rfl⟩ | ⟨-, rfl⟩
  · simp [hst]
  · have hp : samplePending i s := ⟨⟨hst, hd⟩, hidx⟩
    exact ⟨rfl, rfl, rfl, rfl, fun a ha => readByte_applySample_ne hw (ha hp),
      fun _ => ⟨rfl, rfl, rfl, .inr hp⟩, fun _ => ⟨rfl, rfl⟩⟩
  all_goals simp

theorem exec_map {i : Instr} {s t : State} (h : exec i s = .next t) : t.map = s.map := by
  obtain ⟨hmap, -⟩ := commandStepFrame i s t h
  exact hmap

/-- R51: the engine's turn leaves the platform's map alone. -/
theorem engineTurn_map {s t : State} (h : engineTurn s = .next t) : t.map = s.map := by
  rcases engineTurn_next_cases h with ⟨-, rfl⟩ | ⟨i, u, -, -, hu, rfl⟩
  · rfl
  · rw [settle_map, exec_map hu]

theorem issueTurn_map {raw : RawDesc} {s t : State} (h : issueTurn raw s = .next t) : t.map = s.map := by
  rcases issueTurn_next_cases h with ⟨i, -, hi⟩ | ⟨_, -, rfl⟩
  · exact exec_map hi
  · rfl

theorem hostTurn_map {m : HostMove} {s t : State} (h : hostTurn m s = .next t) : t.map = s.map := by
  cases m with
  | issue raw => exact issueTurn_map h
  | reset => obtain ⟨l, cells, rfl, -⟩ := hostReset_next_cases h; rfl
  | poke a v => obtain ⟨-, -, rfl⟩ := hostWrite_next_cases h; rfl
  | peek a => rw [hostRead_next_cases h]
  | readReg r => cases h; rfl
  | wait => exact engineTurn_map h

/-- Settles O47: neither the engine's turns nor the host's moves write the map. -/
theorem platformMapNeverChanges : Obligations.PlatformMapNeverChanges := by
  intro s t ht
  rcases step_cases s with ⟨-, e⟩ | ⟨_, _, -, -, e⟩ | ⟨_, rest, -, -, e⟩ | ⟨_, rest, -, -, e⟩ <;> rw [e] at ht
  · exact engineTurn_map ht
  · exact engineTurn_map ht
  · exact issueTurn_map (s := { s with inbox := rest }) ht
  · exact hostTurn_map (s := { s with inbox := rest }) ht

/-! ### The bytes the host's writes leave unspecified (R64) -/

/-- Where a command has ended, settling frees the unspecified bytes, of which there are none without a host write. -/
theorem settle_of_ended {i : Instr} {s : State} (hst : s.st ≠ .busy) (hd : s.desc = instrDescriptor i) :
    settle s = settleBytes (unspecifiedBytes i s.hostWrote s.idx.toNat) s := by
  by_cases hw : s.hostWrote = []
  · rw [settle_of_nil hw, hw, unspecifiedBytes_nil]
    exact congrArg (fun l => { s with hostWrote := l }) hw
  · simp [settle, hst, hw, hd]

/-- The step that ends a command leaves memory and `IDX` alone: it is a fault or the completion (R38, R197). -/
theorem exec_ended {i : Instr} {s t : State} (hx : inExecution i s) (h : exec i s = .next t) (hst : t.st ≠ .busy) :
    t.mem = s.mem ∧ t.idx = s.idx ∧ t.desc = instrDescriptor i := by
  rcases exec_next_cases h with ⟨hidle, -⟩ | ⟨_, hbusy, -, -, -, rfl⟩ | ⟨_, -, -, -, -, rfl⟩ | ⟨-, -, -, rfl⟩ |
    ⟨-, hne, -⟩ | ⟨hhalted, -⟩
  · simp [hx.1] at hidle
  · exact absurd hbusy hst
  · exact ⟨rfl, rfl, hx.2⟩
  · exact ⟨rfl, rfl, hx.2⟩
  · exact absurd hx.2 hne
  · simp [hx.1] at hhalted

theorem accessible_congr {s t : State} (h : t.map = s.map) (a : Addr) : accessible t a ↔ accessible s a := by
  simp only [accessible, mapped, isDevice, h]

/-- R64: which bytes are unspecified, in the words of the rule. -/
theorem mem_unspecifiedBytes {i : Instr} {wrote : List Addr} {n : Nat} {b : Addr} :
    b ∈ unspecifiedBytes i wrote n ↔
      (∃ a ∈ wrote, b ∈ samplesAt i a) ∨ ∃ k, lastWriter i n k b ∧ ComputedFrom i wrote k := by
  simp only [unspecifiedBytes, List.mem_append, List.mem_flatMap, mem_taintedAfter_iff, sampleTouched_iff]

/-- Settles O16: the ending step is settled, which gives each unspecified byte of ordinary memory a free byte of its
own; the unspecified bytes are computed sample by sample. -/
theorem touchedSamplesEndUnspecified : Obligations.TouchedSamplesEndUnspecified := by
  refine ⟨fun i s t hwf hx hin ht => ?_, fun i wrote n b => by simp only [mem_unspecifiedBytes, mem_samplesAt]⟩
  have hstep : step s = .next (settle t) := by rw [step_of_noMove hin, engineTurn_busy hx.1 hx.2, ht, settled]
  refine ⟨fun hst => by rw [hstep, settle_of_busy hst], fun hst => ?_⟩
  obtain ⟨hmem, hidx, hd⟩ := exec_ended hx ht hst
  have hmap := exec_map ht
  obtain ⟨-, -, hfresh⟩ := exec_host_frame ht
  rw [settle_of_ended hst hd, exec_hostWrote ht (by simp [hx.1]), hidx] at hstep
  obtain ⟨index, hfree⟩ :=
    readByte_settleBytes_mem (s := t) (hmem ▸ hwf) (unspecifiedBytes i s.hostWrote s.idx.toNat)
  refine ⟨_, _, index, hstep, fun a ha hacc => ?_, fun a ha => readByte_settleBytes_inaccessible fun hm hacc => ?_⟩
  · obtain ⟨hlow, hhigh, hval, hinj⟩ := hfree a ha ((accessible_congr hmap a).2 hacc)
    exact ⟨hfresh ▸ hlow, hhigh, hval, fun b hb hbacc => hinj b hb ((accessible_congr hmap b).2 hbacc)⟩
  · exact ha hm ((accessible_congr hmap a).1 hacc)

/-! ### The host's accesses to a byte (R63, R64) -/

theorem currentInstr_of_inExecution {i : Instr} {s : State} (h : inExecution i s) : currentInstr s = some i := by
  simp [currentInstr, h.1, h.2]

theorem hostWrite_of_accessible {s : State} {a : Addr} (h : accessible s a) (v : Byte) :
    hostWrite a v s = .next { s with
      mem := writeByte s.mem a v, hostWrote := if inCommand s a then a :: s.hostWrote else s.hostWrote } := by
  simp [hostWrite, h.1, h.2]

/-- The next move of the host, a write of an accessible byte, is made. -/
theorem step_of_poke {s : State} {a : Addr} {v : Byte} {rest : List HostMove} (hin : s.inbox = .poke a v :: rest)
    (hacc : accessible s a) :
    step s = .next { s with
      inbox := rest, mem := writeByte s.mem a v,
      hostWrote := if inCommand s a then a :: s.hostWrote else s.hostWrote } :=
  (step_of_otherMove hin (by simp)).trans (hostWrite_of_accessible (s := { s with inbox := rest }) hacc v)

/-- Settles O50: the write is `writeByte`, and is not held against a command. -/
theorem hostWriteOutsideTheCommand : Obligations.HostWriteOutsideTheCommand := by
  intro s a v rest hin hwf hacc hout
  have houtside : inCommand s a = false := by
    by_contra hne
    obtain ⟨i, hx, hbyte⟩ := inCommand_cases (by simpa using hne)
    simp [hout i hx] at hbyte
  refine ⟨writeByte s.mem a v, ?_, readByte_writeByte_self hwf a v, fun b hb => readByte_writeByte_ne s.mem v hb⟩
  simp [step_of_poke hin hacc, houtside]

/-- Every byte of a sample the host wrote into is unspecified, however many samples are processed (R64). -/
theorem unspecified_of_mem_samplesAt {i : Instr} {wrote : List Addr} {a b : Addr} (ha : a ∈ wrote)
    (hb : b ∈ samplesAt i a) (n : Nat) : b ∈ unspecifiedBytes i wrote n :=
  mem_unspecifiedBytes.2 (.inl ⟨a, ha, hb⟩)

/-- Settles O51: the write is `writeByte`, and its byte is held, which makes the samples of the byte unspecified. -/
theorem hostWriteInsideTheCommand : Obligations.HostWriteInsideTheCommand := by
  intro s i a v rest hin hwf hacc hx hbyte
  have hinside : inCommand s a = true := by
    simpa only [inCommand, currentInstr_of_inExecution hx, Bool.or_eq_true] using hbyte
  refine ⟨writeByte s.mem a v, ?_, readByte_writeByte_self hwf a v, fun b hb => readByte_writeByte_ne s.mem v hb,
    fun n => ⟨?_, fun b hb => unspecified_of_mem_samplesAt List.mem_cons_self hb n⟩⟩
  · simp [step_of_poke hin hacc, hinside]
  · exact unspecified_of_mem_samplesAt List.mem_cons_self (mem_samplesAt_self hbyte) n

/-- The next move of the host, a read of an accessible byte, puts `hostByte` on the bus. -/
theorem step_of_peek {s : State} {a : Addr} {rest : List HostMove} (hin : s.inbox = .peek a :: rest)
    (hacc : accessible s a) :
    step s = .next { s with
      inbox := rest, bus := (hostByte a { s with inbox := rest }).setWidth 32, fresh := s.fresh + 1 } := by
  have hmapped : mapped { s with inbox := rest } a = true := hacc.1
  have hordinary : isDevice { s with inbox := rest } a = false := hacc.2
  simp [step_of_otherMove hin (by simp), hostTurn, hostRead, hmapped, hordinary]

theorem hostByte_of_not_busy {s : State} (h : s.st ≠ .busy) (a : Addr) : hostByte a s = readByte s.mem a := by
  simp [hostByte, currentInstr, h]

/-- A byte that is unspecified after the samples the read sees is a free byte. -/
theorem hostByte_of_unspecified {i : Instr} {s : State} (hx : inExecution i s) {a : Addr}
    (h : a ∈ unspecifiedBytes i s.hostWrote (runAhead i (samplesSeen i a s) s).idx.toNat) :
    hostByte a s = Config.freeByte s.fresh := by
  simp [hostByte, currentInstr_of_inExecution hx, h]

/-- Any other byte is that at acceptance, or that in memory after the samples the read sees. -/
theorem hostByte_of_specified {i : Instr} {s : State} (hx : inExecution i s) {a : Addr}
    (h : a ∉ unspecifiedBytes i s.hostWrote (runAhead i (samplesSeen i a s) s).idx.toNat) :
    hostByte a s = if isDestByte i a && (Config.freeChoice s.fresh).getLsbD 0 then readByte s.atAccept a
      else readByte (runAhead i (samplesSeen i a s) s).mem a := by
  simp [hostByte, currentInstr_of_inExecution hx, h]

/-- Settles O49: the byte read is `hostByte`, which sees no sample ahead but for a destination byte. -/
theorem hostReadsOldOrNewByte : Obligations.HostReadsOldOrNewByte := by
  intro s a rest hin hacc
  refine ⟨hostByte a { s with inbox := rest }, step_of_peek hin hacc, fun hst => hostByte_of_not_busy (by exact hst) a,
    fun i hx => ?_⟩
  have hx' : inExecution i { s with inbox := rest } := hx
  refine ⟨fun hdest => ?_, fun hdest hspec => ?_, fun ⟨w, hw, ha⟩ => ?_⟩
  · have hseen : samplesSeen i a { s with inbox := rest } =
        Config.freeAhead s.fresh % (i.ops.size.toNat - s.idx.toNat + 1) := if_pos hdest
    refine ⟨_, Nat.le_of_lt_succ (Nat.mod_lt _ (Nat.succ_pos _)), rfl, ?_⟩
    rw [← hseen]
    refine ⟨hostByte_of_unspecified hx', fun hspec => ?_⟩
    rw [hostByte_of_specified hx' hspec, hdest, Bool.true_and]
  · have hseen : samplesSeen i a { s with inbox := rest } = 0 := by simp [samplesSeen, hdest]
    rw [hostByte_of_specified hx' (by rw [hseen]; exact hspec), hseen, hdest]
    simp [runAhead]
  · exact hostByte_of_unspecified hx' (unspecified_of_mem_samplesAt hw ha _)

/-! ### A whole command is the store of its samples, one after the other (R37, R38, R62) -/

/-- The bytes a command stores at `da` for the number `raw` it has read. -/
def storedCells (i : Instr) (da : Addr) (raw : Nat) : List (Addr × Byte) :=
  match i with
  | .pvs8 d => cellsLE da (pvs8Sample d (BitVec.ofNat 8 raw))
  | .pvs16 d => cellsLE da (pvs16Sample d (BitVec.ofNat 16 raw))
  | .pvs32 d => cellsLE da (pvs32Sample d (BitVec.ofNat 32 raw))

/-- The bytes sample `k` of a command stores over a memory. -/
def sampleCells (i : Instr) (m : Memory) (k : Word) : List (Addr × Byte) :=
  storedCells i (effAddr (dstBase i) k (dstElemSize i))
    (readLE m (effAddr i.ops.src k (srcElemSize i)) (srcElemSize i))

theorem sampleCells_addrs (i : Instr) (m : Memory) (k : Word) :
    (sampleCells i m k).map Prod.fst = destBytes i k := by
  cases i <;> exact cellsLE_addrs _ _

/-- Where the sample is accessible, its bytes are what the element rule answers. -/
theorem instrElement_of_accessible {i : Instr} {s : State} (h : sampleAccessible i s) :
    instrElement i s = .ok (sampleCells i s.mem s.idx) := by
  obtain ⟨hs, hd⟩ := h
  cases i with
  | pvs8 d => exact element_of_accessible _ hs hd
  | pvs16 d => exact element_of_accessible _ hs hd
  | pvs32 d => exact element_of_accessible _ hs hd

/-- Memory after the samples `0 .. n - 1` of a command, each read before it is written. -/
def memAfter (i : Instr) (m : Memory) : Nat → Memory
  | 0 => m
  | n + 1 => writeCells (memAfter i m n) (sampleCells i (memAfter i m n) (BitVec.ofNat 32 n))

theorem memAfter_wf (i : Instr) {m : Memory} (h : Memory.wf m) (n : Nat) : Memory.wf (memAfter i m n) := by
  induction n with
  | zero => exact h
  | succ n ih => exact writeCells_wf ih _

/-- The state in which the command in execution in `s` has stored its samples before `n`, and nothing else has changed. -/
def atSample (i : Instr) (s : State) (n : Nat) : State :=
  { s with mem := memAfter i s.mem n, idx := BitVec.ofNat 32 n }

/-- With all its samples stored, the command's index is `SIZE`. -/
@[simp] theorem atSample_size_idx (i : Instr) (s : State) : (atSample i s i.ops.size.toNat).idx = i.ops.size :=
  (BitVec.ofNat_toNat 32 i.ops.size).trans (BitVec.setWidth_eq _)

theorem run_succ {s t : State} (h : Sys2Proof.core.step s = .next t) (n : Nat) :
    Sys2Proof.core.run (n + 1) s = Sys2Proof.core.run n t := by
  simp only [Host.Core.run, h]

section Run

variable {i : Instr} {s : State} (hx : inExecution i s) (hin : s.inbox = []) (hwrote : s.hostWrote = [])
  (hacc : ∀ k < i.ops.size.toNat, ∀ a ∈ sourceBytes i (BitVec.ofNat 32 k) ++ destBytes i (BitVec.ofNat 32 k),
    accessible s a)
include hx hin hwrote

theorem step_atSample (n : Nat) : Sys2Proof.core.step (atSample i s n) = exec i (atSample i s n) :=
  (step_of_noMove (s := atSample i s n) hin).trans (engineTurn_of_nil (s := atSample i s n) hx.1 hx.2 hwrote)

include hacc

/-- R37: the next sample is stored. -/
theorem step_atSample_lt {n : Nat} (hn : n < i.ops.size.toNat) :
    Sys2Proof.core.step (atSample i s n) = .next (atSample i s (n + 1)) := by
  have hidx : (BitVec.ofNat 32 n).toNat = n := by
    have := i.ops.size.isLt
    rw [BitVec.toNat_ofNat, Nat.mod_eq_of_lt (by omega)]
  have hpending : samplePending i (atSample i s n) := ⟨hx, by simpa only [atSample, hidx] using hn⟩
  have hsample : sampleAccessible i (atSample i s n) :=
    ⟨fun a ha => hacc n hn a (List.mem_append_left _ ha), fun a ha => hacc n hn a (List.mem_append_right _ ha)⟩
  rw [step_atSample hx hin hwrote n]
  refine (exec_of_elementOk hpending (instrElement_of_accessible hsample)).trans ?_
  simp only [atSample, applySample, memAfter, BitVec.ofNat_add]
  rfl

/-- From sample `k` on, with `n` samples left, the command stores them and completes. -/
theorem run_atSample {k n : Nat} (hkn : k + n = i.ops.size.toNat) :
    Sys2Proof.core.run (n + 1) (atSample i s k) = .next (complete (atSample i s i.ops.size.toNat)) := by
  induction n generalizing k with
  | zero =>
    obtain rfl : k = i.ops.size.toNat := hkn
    exact run_succ ((step_atSample hx hin hwrote _).trans (exec_of_allProcessed hx (atSample_size_idx i s))) 0
  | succ n ih =>
    rw [run_succ (step_atSample_lt hx hin hwrote hacc (n := k) (by omega))]
    exact ih (by omega)

end Run

/-- R151, R161, R177: from the idle core, a command presented whose samples are all accessible completes in `SIZE + 2`
steps, and leaves memory as its samples do, one after the other. -/
theorem run_command {i : Instr} {s : State} (hst : s.st = .idle) (hin : s.inbox = [.issue (encode i)])
    (hacc : ∀ k < i.ops.size.toNat, ∀ a ∈ sourceBytes i (BitVec.ofNat 32 k) ++ destBytes i (BitVec.ofNat 32 k),
      accessible s a) :
    ∃ t, Sys2Proof.core.run (i.ops.size.toNat + 2) s = .next t ∧ t.st = .idle ∧ t.done = true ∧
      t.idx = i.ops.size ∧ t.mem = memAfter i s.mem i.ops.size.toNat := by
  have hrun := (run_succ (step_accepts_encode hst hin) _).trans <|
    run_atSample (s := accept (instrDescriptor i) { s with inbox := [] }) ⟨rfl, rfl⟩ rfl rfl hacc (Nat.zero_add _)
  exact ⟨_, hrun, rfl, rfl, by simp, rfl⟩

/-! ### Which sample last wrote a byte, and what it read -/

theorem readByte_memAfter_succ_ne (i : Instr) (m : Memory) {n : Nat} {a : Addr}
    (h : a ∉ destBytes i (BitVec.ofNat 32 n)) : readByte (memAfter i m (n + 1)) a = readByte (memAfter i m n) a :=
  readByte_writeCells_ne _ _ (by rwa [sampleCells_addrs])

/-- A byte is as sample `k` found it, until a sample from `k` on writes it. -/
theorem readByte_memAfter_of_not_written (i : Instr) (m : Memory) {k n : Nat} {a : Addr} (hkn : k ≤ n)
    (h : ∀ j, k ≤ j → j < n → a ∉ destBytes i (BitVec.ofNat 32 j)) :
    readByte (memAfter i m n) a = readByte (memAfter i m k) a := by
  induction n, hkn using Nat.le_induction with
  | base => rfl
  | succ n hkn ih =>
    rw [readByte_memAfter_succ_ne i m (h n hkn n.lt_succ_self), ih fun j hkj hj => h j hkj (hj.trans n.lt_succ_self)]

/-- What a sample stores depends on its source bytes only. -/
theorem sampleCells_congr {i : Instr} {m m' : Memory} {k : Word}
    (h : ∀ b ∈ sourceBytes i k, readByte m b = readByte m' b) : sampleCells i m k = sampleCells i m' k := by
  rw [sampleCells, sampleCells, readLE_congr h]

/-- A sample whose source no earlier sample writes, and whose destination no later one does, ends as the image of its
source at acceptance (R69). -/
theorem readByte_memAfter_cell {i : Instr} {m : Memory} (hm : Memory.wf m) {k n : Nat} (hkn : k < n)
    (hsource : ∀ b ∈ sourceBytes i (BitVec.ofNat 32 k), ∀ j < k, b ∉ destBytes i (BitVec.ofNat 32 j))
    (hlast : ∀ b ∈ destBytes i (BitVec.ofNat 32 k), ∀ j, k < j → j < n → b ∉ destBytes i (BitVec.ofNat 32 j))
    {c : Addr × Byte} (hc : c ∈ sampleCells i m (BitVec.ofNat 32 k)) : readByte (memAfter i m n) c.1 = c.2 := by
  have hread : sampleCells i (memAfter i m k) (BitVec.ofNat 32 k) = sampleCells i m (BitVec.ofNat 32 k) :=
    sampleCells_congr fun b hb =>
      readByte_memAfter_of_not_written i m (Nat.zero_le k) fun j _ hj => hsource b hb j hj
  have hdest : c.1 ∈ destBytes i (BitVec.ofNat 32 k) := sampleCells_addrs i m _ ▸ List.mem_map_of_mem hc
  have hkeep : readByte (memAfter i m n) c.1 = readByte (memAfter i m (k + 1)) c.1 :=
    readByte_memAfter_of_not_written i m hkn fun j hj hjn => hlast c.1 hdest j hj hjn
  rw [hkeep, memAfter, hread]
  exact readByte_writeCells_mem (memAfter_wf i hm k) (by rw [sampleCells_addrs]; exact destBytes_nodup i _) hc

/-! ### The samples of a buffer that does not wrap onto itself -/

/-- A byte of one of the first `n` samples of a buffer lies in their `es * n` bytes. -/
theorem offset_of_mem_sample {base b : Addr} {es k n : Nat} (hk : k < n)
    (hb : b ∈ byteAddrs (effAddr base (BitVec.ofNat 32 k) es) es) : ∃ x < es * n, b = base + BitVec.ofNat 32 x := by
  obtain ⟨t, ht, rfl⟩ := mem_sampleBytes.1 hb
  have hle : es * (k + 1) ≤ es * n := Nat.mul_le_mul_left es hk
  rw [Nat.mul_succ] at hle
  exact ⟨es * k + t, by omega, rfl⟩

/-- Two samples with a byte in common, of buffers at one base, overlap as ranges of distances from the base. -/
theorem lt_of_common_byte {base b : Addr} {es es' k j n n' : Nat} (hfit : es * n ≤ 2 ^ 32) (hfit' : es' * n' ≤ 2 ^ 32)
    (hk : k < n) (hj : j < n') (hb : b ∈ byteAddrs (effAddr base (BitVec.ofNat 32 k) es) es)
    (hb' : b ∈ byteAddrs (effAddr base (BitVec.ofNat 32 j) es') es') : es * k < es' * (j + 1) := by
  obtain ⟨t, ht, rfl⟩ := mem_sampleBytes.1 hb
  obtain ⟨t', ht', he⟩ := mem_sampleBytes.1 hb'
  have hle : es * (k + 1) ≤ es * n := Nat.mul_le_mul_left es hk
  have hle' : es' * (j + 1) ≤ es' * n' := Nat.mul_le_mul_left es' hj
  rw [Nat.mul_succ] at hle hle' ⊢
  have := add_ofNat_inj (by omega) (by omega) he
  omega

/-- Different destination samples have no byte in common. -/
theorem not_mem_dest_of_mem_dest {i : Instr} (hfit : dstElemSize i * i.ops.size.toNat ≤ 2 ^ 32) {k j : Nat} (hkj : k < j)
    (hj : j < i.ops.size.toNat) {b : Addr} (hb : b ∈ destBytes i (BitVec.ofNat 32 k)) :
    b ∉ destBytes i (BitVec.ofNat 32 j) := by
  intro hb'
  have hlt := lt_of_common_byte hfit hfit hj (hkj.trans hj) hb' hb
  exact absurd (Nat.lt_of_mul_lt_mul_left hlt) (by omega)

/-! ### Commands in place (R69) -/

theorem dstElemSize_le_srcElemSize (i : Instr) : dstElemSize i ≤ srcElemSize i := by
  cases i <;> simp [dstElemSize, srcElemSize]

section InPlace

variable {i : Instr} (hbase : dstBase i = i.ops.src) (hfit : srcElemSize i * i.ops.size.toNat ≤ 2 ^ 32)
include hbase hfit

/-- In place, no sample writes into the source of a later one: its destination lies before the end of its source. -/
theorem not_mem_dest_of_mem_source {k j : Nat} (hjk : j < k) (hk : k < i.ops.size.toNat) {b : Addr}
    (hb : b ∈ sourceBytes i (BitVec.ofNat 32 k)) : b ∉ destBytes i (BitVec.ofNat 32 j) := by
  intro hb'
  have hle (n : Nat) : dstElemSize i * n ≤ srcElemSize i * n := Nat.mul_le_mul_right n (dstElemSize_le_srcElemSize i)
  have hlt := lt_of_common_byte hfit ((hle _).trans hfit) hk (hjk.trans hk) hb (hbase ▸ hb')
  exact absurd (Nat.lt_of_mul_lt_mul_left (hlt.trans_le (hle _))) (by omega)

/-- R69 (a), (b): an in-place command completes with the image of every source sample at acceptance in its destination
sample, and every byte outside the destination as it was. -/
theorem run_inPlace {s : State} (hwf : Memory.wf s.mem) (hst : s.st = .idle) (hin : s.inbox = [.issue (encode i)])
    (hacc : ∀ x < srcElemSize i * i.ops.size.toNat, accessible s (i.ops.src + BitVec.ofNat 32 x)) :
    ∃ t, Sys2Proof.core.run (i.ops.size.toNat + 2) s = .next t ∧ t.st = .idle ∧ t.done = true ∧
      (∀ k < i.ops.size.toNat, ∀ c ∈ sampleCells i s.mem (BitVec.ofNat 32 k), readByte t.mem c.1 = c.2) ∧
      ∀ a : Addr, (∀ x < dstElemSize i * i.ops.size.toNat, a ≠ i.ops.src + BitVec.ofNat 32 x) →
        readByte t.mem a = readByte s.mem a := by
  have hle : dstElemSize i * i.ops.size.toNat ≤ srcElemSize i * i.ops.size.toNat :=
    Nat.mul_le_mul_right _ (dstElemSize_le_srcElemSize i)
  have hdest {k : Nat} (hk : k < i.ops.size.toNat) {a : Addr} (ha : a ∈ destBytes i (BitVec.ofNat 32 k)) :
      ∃ x < dstElemSize i * i.ops.size.toNat, a = i.ops.src + BitVec.ofNat 32 x := hbase ▸ offset_of_mem_sample hk ha
  have hsamples : ∀ k < i.ops.size.toNat, ∀ a ∈ sourceBytes i (BitVec.ofNat 32 k) ++ destBytes i (BitVec.ofNat 32 k),
      accessible s a := fun k hk a ha => by
    rcases List.mem_append.1 ha with ha | ha
    · obtain ⟨x, hx, rfl⟩ := offset_of_mem_sample hk ha
      exact hacc x hx
    · obtain ⟨x, hx, rfl⟩ := hdest hk ha
      exact hacc x (hx.trans_le hle)
  obtain ⟨t, hrun, hidle, hdone, -, hmem⟩ := run_command hst hin hsamples
  refine ⟨t, hrun, hidle, hdone, fun k hk c hc => ?_, fun a ha => ?_⟩ <;> rw [hmem]
  · exact readByte_memAfter_cell hwf hk
      (fun b hb j hj => not_mem_dest_of_mem_source hbase hfit hj hk hb)
      (fun b hb j hkj hj => not_mem_dest_of_mem_dest (hle.trans hfit) hkj hj hb) hc
  · refine readByte_memAfter_of_not_written i s.mem (Nat.zero_le _) fun j _ hj hb => ?_
    obtain ⟨x, hx, he⟩ := hdest hj hb
    exact ha x hx he

end InPlace

/-- What PVS16 stores for a sample, from the two bytes it reads. -/
theorem sampleCells_pvs16 (d : Operands) (m : Memory) (k : Word) :
    sampleCells (.pvs16 d) m k = cellsLE (effAddr d.dst k 2)
      (pvs16Sample d (readByte m (effAddr d.src k 2 + 1) ++ readByte m (effAddr d.src k 2))) := by
  simp only [sampleCells, storedCells, srcElemSize, dstElemSize, dstBase, Instr.ops, readLE_two, BitVec.ofNat_toNat,
    BitVec.setWidth_eq]

/-- What PVS32 stores for a sample, from the four bytes it reads. -/
theorem sampleCells_pvs32 (d : Operands) (m : Memory) (k : Word) :
    sampleCells (.pvs32 d) m k = cellsLE (effAddr d.dst k 2)
      (pvs32Sample d (readByte m (effAddr d.src k 4 + 3) ++ readByte m (effAddr d.src k 4 + 2) ++
        readByte m (effAddr d.src k 4 + 1) ++ readByte m (effAddr d.src k 4))) := by
  simp only [sampleCells, storedCells, srcElemSize, dstElemSize, dstBase, Instr.ops, readLE_four, BitVec.ofNat_toNat,
    BitVec.setWidth_eq]

/-- Settles O58: both commands are in place, so no sample writes into the source of a later one. -/
theorem inPlaceCommandsUseOriginalSamples : Obligations.InPlaceCommandsUseOriginalSamples := by
  intro d s hwf hst hdst
  refine ⟨fun hin hfit hacc => ?_, fun hin hfit hacc => ?_⟩
  · obtain ⟨t, hrun, hidle, hdone, hcells, hframe⟩ := run_inPlace (i := .pvs16 d) hdst hfit hwf hst hin hacc
    refine ⟨t, hrun, hidle, hdone, fun k hk => ?_, hframe⟩
    have himage := hcells k hk
    rw [sampleCells_pvs16, effAddr_ofNat, effAddr_ofNat, hdst] at himage
    exact readHalf_of_cells himage
  · obtain ⟨t, hrun, hidle, hdone, hcells, hframe⟩ := run_inPlace (i := .pvs32 d) hdst hfit hwf hst hin hacc
    refine ⟨t, hrun, hidle, hdone, fun k hk => ?_, hframe⟩
    have himage := hcells k hk
    rw [sampleCells_pvs32, effAddr_ofNat, effAddr_ofNat, hdst] at himage
    exact readHalf_of_cells himage

end Sys2Proof.Proofs

/-! The encoding (30_encoding.md): what decoding answers, the fields of a descriptor, and the round trips. -/

namespace Sys2Proof.Proofs

open Sys2Proof Sys2Proof.Machine Sys2Proof.Laws

/-! ### What decoding answers (R86) -/

/-- R85, R86: a descriptor decodes to a command just where its reserved fields are 0 and its named fields are those
that the command latches. -/
theorem decode_eq_ok {raw : RawDesc} {i : Instr} :
    decode raw = .ok i ↔
      rawField raw 0 2 30 = 0 ∧ rawField raw 10 16 16 = 0 ∧ rawDescriptor raw = instrDescriptor i := by
  rw [← descriptorInstr_eq_some]
  by_cases hres0 : rawField raw 0 2 30 = 0#30
  · by_cases hres10 : rawField raw 10 16 16 = 0#16
    · cases hi : descriptorInstr (rawDescriptor raw) <;> simp [decode, hres0, hres10, hi]
    · simp [decode, hres0, hres10]
  · simp [decode, hres0]

/-- R86: the legal descriptors are those that decode to a command. -/
theorem legalDescriptor_iff_decodes {raw : RawDesc} : legalDescriptor raw ↔ ∃ i, decode raw = .ok i := by
  have hopc : raw.extractLsb' 0 2 ≠ 0 ↔ ∃ i, descriptorInstr (rawDescriptor raw) = some i := by
    rw [← Option.ne_none_iff_exists', ne_eq, ne_eq, descriptorInstr_eq_none]
    rfl
  simp only [decode_eq_ok, exists_and_left, ← descriptorInstr_eq_some, ← hopc]
  exact and_rotate

/-- Settles O1: the reserved fields of an encoded command are 0, and its named fields are the command's. -/
theorem decodeInvertsEncode : Obligations.DecodeInvertsEncode := decode_encode

/-- Settles O3: a descriptor that fails a clause decodes to an error, and the idle engine's issue turn records it. -/
theorem illegalDescriptorRaisesFault : Obligations.IllegalDescriptorRaisesFault := by
  refine fun raw => ⟨legalDescriptor_iff_decodes.1, fun hillegal s rest hst hin => ?_⟩
  cases hdec : decode raw with
  | ok i => exact absurd (legalDescriptor_iff_decodes.2 ⟨i, hdec⟩) hillegal
  | error e =>
    rw [step_of_presented hin hst, issueTurn_of_illegal hdec]
    rfl

/-! ### Fields of a descriptor (R81, R84) -/

/-- R84: two words in a row, the later one the high half, are one 64-bit field. -/
theorem rawField_append_rawField (raw : RawDesc) (k : Nat) :
    rawField raw (k + 1) 0 32 ++ rawField raw k 0 32 = raw.extractLsb' (32 * k) 64 :=
  BitVec.extractLsb'_append_extractLsb'_eq_extractLsb' (by omega)

/-- Settles O4: the operands are the named fields, and `OFFSET` and `SCALE` each join two words. -/
theorem operandFieldsAreContiguous : Obligations.OperandFieldsAreContiguous := by
  intro raw i h
  obtain ⟨-, -, hdesc⟩ := decode_eq_ok.1 h
  have hopc : instrOpc i = rawField raw 0 0 2 := (congrArg Descriptor.opc hdesc).symm
  have hops : i.ops = rawOperands raw := (congrArg Descriptor.ops hdesc).symm
  rw [hops]
  exact ⟨hopc, rfl, rfl, rfl, rawField_append_rawField raw 4, rawField_append_rawField raw 6, rfl, rfl, rfl,
    rfl, rfl, rfl⟩

/-- Patterns that agree in two adjacent fields agree in the field that the two make up. -/
theorem extractLsb'_eq_of_adjacent {w lo n m : Nat} {x y : BitVec w}
    (hlow : x.extractLsb' lo n = y.extractLsb' lo n) (hhigh : x.extractLsb' (lo + n) m = y.extractLsb' (lo + n) m) :
    x.extractLsb' lo (m + n) = y.extractLsb' lo (m + n) := by
  rw [← BitVec.extractLsb'_append_extractLsb'_eq_extractLsb' rfl, hlow, hhigh,
    BitVec.extractLsb'_append_extractLsb'_eq_extractLsb' rfl]

/-- The fields of R81 leave no bit out: two descriptors of one command agree in each, from `OPC` up to `BPP`. -/
theorem eq_of_decode_eq_ok {x y : RawDesc} {i : Instr} (hx : decode x = .ok i) (hy : decode y = .ok i) : x = y := by
  obtain ⟨xRes0, xRes10, -⟩ := decode_eq_ok.1 hx
  obtain ⟨yRes0, yRes10, -⟩ := decode_eq_ok.1 hy
  obtain ⟨xOpc, xSize, xSrc, xDst, xOffset, xScale, xBlack, xWhite, xTmin, xTmax, xDrange, xBpp⟩ :=
    operandFieldsAreContiguous x i hx
  obtain ⟨yOpc, ySize, ySrc, yDst, yOffset, yScale, yBlack, yWhite, yTmin, yTmax, yDrange, yBpp⟩ :=
    operandFieldsAreContiguous y i hy
  have hall : x.extractLsb' 0 384 = y.extractLsb' 0 384 :=
    extractLsb'_eq_of_adjacent (xOpc.symm.trans yOpc) <|
    extractLsb'_eq_of_adjacent (xRes0.trans yRes0.symm) <|
    extractLsb'_eq_of_adjacent (xSize.symm.trans ySize) <|
    extractLsb'_eq_of_adjacent (xSrc.symm.trans ySrc) <|
    extractLsb'_eq_of_adjacent (xDst.symm.trans yDst) <|
    extractLsb'_eq_of_adjacent (xOffset.symm.trans yOffset) <|
    extractLsb'_eq_of_adjacent (xScale.symm.trans yScale) <|
    extractLsb'_eq_of_adjacent (xBlack.symm.trans yBlack) <|
    extractLsb'_eq_of_adjacent (xWhite.symm.trans yWhite) <|
    extractLsb'_eq_of_adjacent (xTmin.symm.trans yTmin) <|
    extractLsb'_eq_of_adjacent (xTmax.symm.trans yTmax) <|
    extractLsb'_eq_of_adjacent (xDrange.symm.trans yDrange) <|
    extractLsb'_eq_of_adjacent (xRes10.trans yRes10.symm) (xBpp.symm.trans yBpp)
  rwa [BitVec.extractLsb'_eq_self, BitVec.extractLsb'_eq_self] at hall

/-- Settles O2: the command's own encoding decodes to the command too, and two descriptors of one command are equal. -/
theorem encodeInvertsDecode : Obligations.EncodeInvertsDecode :=
  fun _ i h => eq_of_decode_eq_ok (decode_encode i) h

/-! ### Worked encodings (R90, P2, P3) -/

/-- The words of a command decode to the command. -/
theorem decode_rawOfWords {ws : List Word} {i : Instr} (h : encodeWords i = ws) : decode (rawOfWords ws) = .ok i :=
  h ▸ decode_encode i

/-- R88, R90: the command that R90's line stands for. -/
theorem assembleLine_r90 :
    assembleLine "PVS8 0x1000, 3, 0.0, 1.0, 50, 200, 0, 255, 255".toList =
      some (.pvs8 ⟨3, 0x1000, 0, 0, 0x3FF0000000000000, 50, 200, 0, 255, 255, 0⟩) := by decide +kernel

/-- Settles O5: the words are those that the commands encode to, and R90's line assembles to R90's command. -/
theorem workedEncodings : Obligations.WorkedEncodings := by
  refine ⟨decode_rawOfWords ?_, decode_rawOfWords ?_, decode_rawOfWords ?_, ?_⟩
  · decide
  · decide
  · decide
  · rw [assembleLine_r90, Option.map_some]
    decide

end Sys2Proof.Proofs

/-! The shared unit (40_lsoc_unit.md): rounding to binary64 and its values, the scale/offset stage, and the stretch
stage. -/

namespace Sys2Proof.Proofs

open Sys2Proof Sys2Proof.Machine Sys2Proof.Laws

/-! ### Rounding is to the nearest, ties to even (R114) -/

/-- A fraction is at most one half away from the whole number it rounds to. -/
theorem two_mul_dist_roundHalfEven_le (n : Nat) {d : Nat} (hd : 0 < d) :
    2 * ((roundHalfEven n d * d : Nat) - n : Int).natAbs ≤ d := by
  obtain ⟨hup, hlow⟩ := roundHalfEven_near n hd
  omega

/-- Two different whole numbers lie at least one apart, by way of any fraction. -/
theorem le_dist_add_dist {k j d : Nat} (n : Nat) (h : k ≠ j) :
    d ≤ ((k * d : Nat) - n : Int).natAbs + ((j * d : Nat) - n : Int).natAbs := by
  rcases Nat.lt_or_gt_of_ne h with hlt | hgt
  · have hstep : (k + 1) * d ≤ j * d := Nat.mul_le_mul_right d hlt
    rw [Nat.succ_mul] at hstep
    omega
  · have hstep : (j + 1) * d ≤ k * d := Nat.mul_le_mul_right d hgt
    rw [Nat.succ_mul] at hstep
    omega

/-- No whole number is nearer to a fraction than the one it rounds to. -/
theorem roundHalfEven_nearest (n k : Nat) {d : Nat} (hd : 0 < d) :
    ((roundHalfEven n d * d : Nat) - n : Int).natAbs ≤ ((k * d : Nat) - n : Int).natAbs := by
  have hhalf := two_mul_dist_roundHalfEven_le n hd
  by_cases hk : k = roundHalfEven n d
  · rw [hk]
  · have hapart := le_dist_add_dist (d := d) n hk
    omega

/-- A fraction less than one half away from a whole number rounds to it. -/
theorem roundHalfEven_of_near {n k d : Nat} (hnear : 2 * ((k * d : Nat) - n : Int).natAbs < d) :
    roundHalfEven n d = k := by
  have hhalf := two_mul_dist_roundHalfEven_le n (d := d) (by omega)
  by_contra hk
  have hapart := le_dist_add_dist (d := d) n hk
  omega

/-- A fraction halfway between two whole numbers rounds to an even one. -/
theorem roundHalfEven_even_of_half {n d : Nat} (hd : 0 < d)
    (hhalf : 2 * ((roundHalfEven n d * d : Nat) - n : Int).natAbs = d) : roundHalfEven n d % 2 = 0 := by
  have hmod := Nat.mod_lt n hd
  have hdiv := Nat.div_add_mod n d
  rw [Nat.mul_comm] at hdiv
  replace hhalf : 2 * (roundHalfEven n d * d) = 2 * n + d ∨ 2 * (roundHalfEven n d * d) + d = 2 * n := by omega
  unfold roundHalfEven at hhalf ⊢
  dsimp only at hhalf ⊢
  split_ifs at hhalf ⊢
  · omega
  · rw [Nat.succ_mul (n / d)] at hhalf
    omega
  · omega

/-- Where another whole number is as near to a fraction, the one it rounds to is even. -/
theorem roundHalfEven_even_of_tie {n k d : Nat} (hd : 0 < d)
    (htie : ((roundHalfEven n d * d : Nat) - n : Int).natAbs = ((k * d : Nat) - n : Int).natAbs)
    (hne : k ≠ roundHalfEven n d) : roundHalfEven n d % 2 = 0 := by
  have hhalf := two_mul_dist_roundHalfEven_le n hd
  have hapart := le_dist_add_dist (d := d) n hne
  exact roundHalfEven_even_of_half hd (by omega)

/-- A value of 53 bits with a last place below the spacing is less than `2^52` units of the spacing, and so less than
the fraction. -/
theorem lt_spacing_of_exp_lt {n d sig e : Nat} (hs : sig < 2 ^ 53) (he : e < spacingExp n d) :
    sig * 2 ^ e < 2 ^ 52 * 2 ^ spacingExp n d :=
  calc sig * 2 ^ e < 2 ^ 53 * 2 ^ e := Nat.mul_lt_mul_of_pos_right hs (by positivity)
    _ = 2 ^ 52 * 2 ^ (e + 1) := by rw [pow_succ]; ring
    _ ≤ _ := Nat.mul_le_mul_left _ (Nat.pow_le_pow_right (by norm_num) he)

/-- Settles O29: a multiple of the spacing is compared as a whole number; any other value of 53 bits lies below
`2^52` units of the spacing, which is nearer to the fraction. -/
theorem roundingIsNearestEven : Obligations.RoundingIsNearestEven := by
  intro n d hd
  refine ⟨roundMag_shape n hd, fun m sig e hs hm => ?_⟩
  have hunit : 0 < d * 2 ^ spacingExp n d := by positivity
  have hscale (k : Nat) : k * 2 ^ spacingExp n d * d = k * (d * 2 ^ spacingExp n d) := by ring
  have hround : roundMag n d = roundHalfEven n (d * 2 ^ spacingExp n d) * 2 ^ spacingExp n d := rfl
  rw [hround, hscale, Nat.mul_div_cancel _ (by positivity)]
  rcases Nat.lt_or_ge e (spacingExp n d) with hlt | hge
  · have hbelow := Nat.mul_lt_mul_of_pos_right (lt_spacing_of_exp_lt (n := n) (d := d) hs hlt) hd
    have habove := (Nat.le_div_iff_mul_le hd).1 (spacing_le_div (n := n) (d := d) (by omega))
    have hnear := roundHalfEven_nearest n (2 ^ 52) hunit
    rw [← hm] at hbelow
    rw [hscale] at hbelow habove
    omega
  · obtain ⟨k, rfl⟩ : ∃ k, m = k * 2 ^ spacingExp n d :=
      ⟨sig * 2 ^ (e - spacingExp n d), by rw [hm, mul_assoc, ← pow_add, Nat.sub_add_cancel hge]⟩
    rw [hscale]
    exact ⟨roundHalfEven_nearest n k hunit, fun htie hne =>
      roundHalfEven_even_of_tie hunit htie fun heq => hne (by rw [heq])⟩

/-- Every fraction less than half a last place away from a value rounds to the value, if that is no power of two. -/
theorem roundMag_of_near {n d m sig e : Nat} (hd : 0 < d) (hm : m = sig * 2 ^ e) (hlow : 2 ^ 52 < sig)
    (hs : sig < 2 ^ 53) (hnear : 2 * ((m * d : Nat) - n : Int).natAbs < 2 ^ e * d) : roundMag n d = m := by
  have hle : 2 ^ 52 * 2 ^ e * d + 2 ^ e * d ≤ m * d := by
    calc 2 ^ 52 * 2 ^ e * d + 2 ^ e * d = (2 ^ 52 + 1) * (2 ^ e * d) := by ring
      _ ≤ sig * (2 ^ e * d) := Nat.mul_le_mul_right _ hlow
      _ = m * d := by rw [hm]; ring
  have hlt : m * d + 2 ^ e * d ≤ 2 ^ 53 * 2 ^ e * d := by
    calc m * d + 2 ^ e * d = (sig + 1) * (2 ^ e * d) := by rw [hm]; ring
      _ ≤ 2 ^ 53 * (2 ^ e * d) := Nat.mul_le_mul_right _ hs
      _ = _ := by ring
  have hlog : Nat.log 2 (n / d) = 52 + e := by
    refine Nat.log_eq_of_pow_le_of_lt_pow ?_ ?_
    · rw [Nat.le_div_iff_mul_le hd, pow_add]; omega
    · rw [Nat.div_lt_iff_lt_mul hd, show 52 + e + 1 = 53 + e by omega, pow_add]; omega
  have hexp : spacingExp n d = e := by rw [spacingExp, hlog]; omega
  have hround : roundHalfEven n (d * 2 ^ e) = sig := by
    refine roundHalfEven_of_near ?_
    rwa [hm, mul_assoc, mul_comm (2 ^ e)] at hnear
  simp only [roundMag, hexp, hround, hm]

/-! ### Binary64 values (R113, R114, R116) -/

@[simp] theorem natAbs_signed (neg : Bool) (m : Nat) : (signed neg m).natAbs = m := by
  cases neg <;> simp

theorem truncZ_fin (neg : Bool) (m : Nat) : truncZ (.fin neg m) = signed neg (m / f64One) := rfl

/-- Settles O28: the integer part of the magnitude, with the sign of the value. -/
theorem truncationDiscardsFraction : Obligations.TruncationDiscardsFraction := by
  intro neg m
  rw [truncZ_fin, natAbs_signed]
  refine ⟨Nat.div_mul_le_self .., Nat.lt_mul_of_div_lt (Nat.lt_succ_self _) f64One_pos, ?_, ?_⟩
  · rintro rfl
    exact Int.natCast_nonneg _
  · rintro rfl
    exact Int.neg_nonpos_of_nonneg (Int.natCast_nonneg _)

/-- A value of few enough bits, with an exponent that keeps the value below the limit. -/
theorem representable_mul_two_pow {sig e k : Nat} (hk : k ≤ 53) (hs : sig < 2 ^ k) (he : k + e ≤ 2098) :
    representable (sig * 2 ^ e) := by
  refine ⟨?_, sig, e, hs.trans_le (Nat.pow_le_pow_right (by norm_num) hk), rfl⟩
  calc sig * 2 ^ e < 2 ^ k * 2 ^ e := Nat.mul_lt_mul_of_pos_right hs (by positivity)
    _ = 2 ^ (k + e) := (pow_add ..).symm
    _ ≤ f64Limit := by rwa [f64Limit, Nat.pow_le_pow_iff_right one_lt_two]

/-- The zeros and the subnormals. -/
theorem representable_of_lt {m : Nat} (h : m < 2 ^ 52) : representable m := by
  simpa using representable_mul_two_pow (e := 0) (by norm_num) h (by norm_num)

theorem isBinary64_iff {x : F64} : x.isBinary64 ↔ ∀ neg m, x = .fin neg m → representable m := by
  cases x <;> simp [F64.isBinary64]

/-- A finite value that rounding answers is a binary64 value. -/
theorem representable_of_roundF64 {s t : Bool} {n d m : Nat} (hd : 0 < d) (h : roundF64 s n d = .fin t m) :
    representable m := by
  rcases Nat.lt_or_ge (roundMag n d) f64Limit with hlt | hge
  · rw [roundF64_of_lt hlt, F64.fin.injEq] at h
    exact h.2 ▸ ⟨hlt, roundMag_shape n hd⟩
  · simp [roundF64, hge] at h

theorem isBinary64_fadd64 (x y : F64) : (fadd64 x y).isBinary64 := by
  refine isBinary64_iff.2 fun neg m h => ?_
  cases x <;> cases y
  case fin.fin =>
    simp only [fadd64] at h
    exact representable_of_roundF64 Nat.one_pos h
  all_goals simp [fadd64, ite_eq_iff] at h

theorem isBinary64_fmul64 (x y : F64) : (fmul64 x y).isBinary64 := by
  refine isBinary64_iff.2 fun neg m h => ?_
  cases x <;> cases y
  case fin.fin =>
    simp only [fmul64] at h
    exact representable_of_roundF64 f64One_pos h
  all_goals simp [fmul64, ite_eq_iff] at h

theorem isBinary64_fdiv64 (x y : F64) : (fdiv64 x y).isBinary64 := by
  refine isBinary64_iff.2 fun neg m h => ?_
  cases x <;> cases y
  case fin.fin s a t b =>
    simp only [fdiv64] at h
    split_ifs at h with hb
    exact representable_of_roundF64 (Nat.pos_of_ne_zero hb) h
  case fin.inf =>
    obtain ⟨-, rfl⟩ := F64.fin.inj h
    exact representable_of_lt (by norm_num)
  all_goals simp [fdiv64] at h

/-- Settles O30: each operation rounds, or answers a zero, an infinity or a NaN. -/
theorem arithmeticStaysInBinary64 : Obligations.ArithmeticStaysInBinary64 :=
  fun x y _ _ => ⟨isBinary64_fadd64 x y, isBinary64_fmul64 x y, isBinary64_fdiv64 x y⟩

/-- R113: a subnormal is its fraction field; a normal value has the leading bit, and an exponent field below 2047. -/
theorem isBinary64_valF64 (p : DWord) : (valF64 p).isBinary64 := by
  have he := (p.extractLsb' 52 11).isLt
  have hf := (p.extractLsb' 0 52).isLt
  unfold valF64
  dsimp only
  split_ifs with h2047 h0 hzero
  · trivial
  · trivial
  · exact representable_of_lt hf
  · exact representable_mul_two_pow (k := 53) le_rfl (by omega) (by omega)

/-- R118: binary32 has fewer bits in both fields. -/
theorem isBinary64_valF32 (w : Word) : (valF32 w).isBinary64 := by
  have he := (w.extractLsb' 23 8).isLt
  have hf := (w.extractLsb' 0 23).isLt
  unfold valF32
  dsimp only
  split_ifs with h255 h0 hzero
  · trivial
  · trivial
  · exact representable_mul_two_pow (by norm_num) hf (by norm_num)
  · exact representable_mul_two_pow (k := 24) (by norm_num) (by omega) (by omega)

/-- Settles O31: a fraction of 53 or 24 bits, below the exponent of the infinities. -/
theorem patternsDenoteBinary64 : Obligations.PatternsDenoteBinary64 :=
  ⟨isBinary64_valF64, isBinary64_valF32⟩

/-! ### Packing (R88) -/

/-- R113: a pattern put together from its three fields. -/
theorem valF64_fields (neg : Bool) (e : BitVec 11) (f : BitVec 52) :
    valF64 (BitVec.ofBool neg ++ e ++ f) =
      if e.toNat = 2047 then (if f.toNat = 0 then .inf neg else .nan)
      else if e.toNat = 0 then .fin neg f.toNat
      else .fin neg ((2 ^ 52 + f.toNat) * 2 ^ (e.toNat - 1)) := by
  have hs : (BitVec.ofBool neg ++ e ++ f).getLsbD 63 = neg := by
    simp only [BitVec.getLsbD_append]
    simp
  have he : (BitVec.ofBool neg ++ e ++ f).extractLsb' 52 11 = e := by
    rw [BitVec.extractLsb'_append_eq_of_le le_rfl]
    exact BitVec.extractLsb'_append_eq_right
  have hf : (BitVec.ofBool neg ++ e ++ f).extractLsb' 0 52 = f := BitVec.extractLsb'_append_eq_right
  simp only [valF64, hs, he, hf]

/-- A magnitude of more than 53 bits is a multiple of its last place, as many bits as make its fraction 53 long. -/
theorem two_pow_dvd_of_representable {m : Nat} (h : representable m) : 2 ^ (Nat.log 2 m - 52) ∣ m := by
  obtain ⟨-, sig, e, hs, rfl⟩ := h
  rcases Nat.eq_zero_or_pos sig with rfl | hpos
  · simp
  · have hlog : Nat.log 2 (sig * 2 ^ e) < 53 + e := by
      refine Nat.log_lt_of_lt_pow (by positivity) ?_
      rw [pow_add]
      exact Nat.mul_lt_mul_of_pos_right hs (by positivity)
    exact Dvd.dvd.mul_left (Nat.pow_dvd_pow 2 (by omega)) sig

/-- Of a magnitude of 53 bits or more, the fraction has the leading bit at 52. -/
theorem div_lastPlace_bounds {m : Nat} (h : 2 ^ 52 ≤ m) :
    2 ^ 52 ≤ m / 2 ^ (Nat.log 2 m - 52) ∧ m / 2 ^ (Nat.log 2 m - 52) < 2 ^ 53 := by
  have hpos : m ≠ 0 := by omega
  have hlog : 52 ≤ Nat.log 2 m := Nat.le_log_of_pow_le (by norm_num) h
  rw [Nat.le_div_iff_mul_le (by positivity), Nat.div_lt_iff_lt_mul (by positivity), ← pow_add, ← pow_add,
    Nat.add_sub_cancel' hlog, show 53 + (Nat.log 2 m - 52) = Nat.log 2 m + 1 by omega]
  exact ⟨Nat.pow_log_le_self 2 hpos, Nat.lt_pow_succ_log_self (by norm_num) m⟩

theorem log_lt_of_lt_f64Limit {m : Nat} (hpos : m ≠ 0) (h : m < f64Limit) : Nat.log 2 m < 2098 := by
  by_contra hge
  have hpow : f64Limit ≤ 2 ^ Nat.log 2 m := by rwa [f64Limit, Nat.pow_le_pow_iff_right one_lt_two, ← not_lt]
  exact h.not_ge (hpow.trans (Nat.pow_log_le_self 2 hpos))

/-- Settles O32: the fields of a zero or subnormal are its magnitude; those of a normal value are the fraction without
the leading bit, and an exponent field that is neither 0 nor all ones. -/
theorem packedPatternDenotesValue : Obligations.PackedPatternDenotesValue := by
  intro x hx
  cases x with
  | nan => decide
  | inf neg => exact (valF64_fields neg _ _).trans (by simp)
  | fin neg m =>
    simp only [packF64]
    split_ifs with hsub
    · rw [valF64_fields, BitVec.toNat_ofNat, Nat.mod_eq_of_lt hsub]
      simp
    · obtain ⟨hlow, hhigh⟩ := div_lastPlace_bounds (Nat.not_lt.1 hsub)
      have hlog : Nat.log 2 m < 2098 := log_lt_of_lt_f64Limit (by omega) hx.1
      have hexp : (Nat.log 2 m - 52 + 1) % 2 ^ 11 = Nat.log 2 m - 52 + 1 := Nat.mod_eq_of_lt (by omega)
      have hfrac : 2 ^ 52 + m / 2 ^ (Nat.log 2 m - 52) % 2 ^ 52 = m / 2 ^ (Nat.log 2 m - 52) := by omega
      rw [valF64_fields, BitVec.toNat_ofNat, BitVec.toNat_ofNat, hexp, hfrac, if_neg (by omega), if_neg (by omega),
        Nat.add_sub_cancel, Nat.div_mul_cancel (two_pow_dvd_of_representable hx)]

/-! ### Values equal to integers (R110, R114, R115) -/

theorem signed_mul (s t : Bool) (a b : Nat) : signed (s != t) (a * b) = signed s a * signed t b := by
  cases s <;> cases t <;> simp

theorem signed_mul_natCast (s : Bool) (k d : Nat) : signed s (k * d) = signed s k * d := by
  cases s <;> simp

theorem signed_natAbs (z : Int) : signed (decide (z < 0)) z.natAbs = z := by
  by_cases hz : z < 0
  · rw [decide_eq_true hz, signed_true]
    omega
  · rw [decide_eq_false hz, signed_false]
    omega

/-- The sign that IEEE 754 gives a zero sum does not change its value. -/
theorem signed_sum (s t : Bool) (z : Int) : signed (if z = 0 then s && t else decide (z < 0)) z.natAbs = z := by
  split_ifs with hz
  · cases s <;> cases t <;> simp [hz]
  · exact signed_natAbs z

theorem signed_toF64 (n : Int) : signed (decide (n < 0)) (n.natAbs * f64One) = n * f64One := by
  rw [signed_mul_natCast, signed_natAbs]

/-- A value equals an integer as a number where it denotes that many ones, either zero for 0. -/
theorem feq64_toF64_iff {x : F64} {n : Int} :
    feq64 x (toF64 n) = true ↔ ∃ s a, x = .fin s a ∧ signed s a = n * f64One := by
  cases x with
  | nan | inf => exact iff_of_false (by simp [feq64, toF64]) (by rintro ⟨_, _, ⟨⟩, _⟩)
  | fin s a =>
    rw [toF64, feq64, signed_toF64, decide_eq_true_eq]
    constructor
    · exact fun h => ⟨s, a, rfl, h⟩
    · rintro ⟨_, _, ⟨⟩, h⟩
      exact h

theorem feq64_toF64_self (n : Int) : feq64 (toF64 n) (toF64 n) = true :=
  feq64_toF64_iff.2 ⟨_, _, rfl, signed_toF64 n⟩

/-- R114: an integer of magnitude at most 2^53 is a binary64 value, which no rounding changes. -/
theorem roundF64_whole (neg : Bool) {k d : Nat} (hd : 0 < d) (hk : k ≤ 2 ^ 53) :
    roundF64 neg (k * f64One * d) d = .fin neg (k * f64One) := by
  obtain ⟨sig, e, hs, he, rfl⟩ : ∃ sig e, sig < 2 ^ 53 ∧ e ≤ 53 ∧ k = sig * 2 ^ e := by
    rcases hk.lt_or_eq with hlt | rfl
    · exact ⟨k, 0, hlt, by norm_num, by simp⟩
    · exact ⟨1, 53, by norm_num, le_rfl, by norm_num⟩
  have hm : sig * 2 ^ e * f64One = sig * 2 ^ (e + 1074) := by rw [f64One, mul_assoc, ← pow_add]
  have hrep := representable_mul_two_pow (e := e + 1074) le_rfl hs (by omega)
  rw [roundF64_of_lt] <;> rw [roundMag_exact hd hs hm]
  rw [hm]
  exact hrep.1

/-- A fraction that is a whole number of ones rounds to that number. -/
theorem feq64_roundF64 {neg : Bool} {num d : Nat} {n : Int} (hd : 0 < d) (hn : n.natAbs ≤ 2 ^ 53)
    (h : signed neg num = n * f64One * d) : feq64 (roundF64 neg num d) (toF64 n) = true := by
  have hnum : num = n.natAbs * f64One * d := by
    have := congrArg Int.natAbs h
    rwa [natAbs_signed, Int.natAbs_mul, Int.natAbs_mul, Int.natAbs_natCast, Int.natAbs_natCast] at this
  rw [hnum, roundF64_whole neg hd hn, feq64_toF64_iff]
  refine ⟨_, _, rfl, ?_⟩
  rw [hnum, signed_mul_natCast] at h
  exact Int.eq_of_mul_eq_mul_right (by omega) h

theorem fmul64_fin (s t : Bool) (a b : Nat) :
    fmul64 (.fin s a) (.fin t b) = roundF64 (s != t) (a * b) f64One := rfl

theorem fadd64_fin (s t : Bool) (a b : Nat) :
    fadd64 (.fin s a) (.fin t b) =
      roundF64 (if signed s a + signed t b = 0 then s && t else decide (signed s a + signed t b < 0))
        (signed s a + signed t b).natAbs 1 := rfl

/-- R114, R115: the product of two whole values is exact up to 2^53. -/
theorem feq64_fmul64 {x y : F64} {n m : Int} (hx : feq64 x (toF64 n) = true) (hy : feq64 y (toF64 m) = true)
    (hnm : (n * m).natAbs ≤ 2 ^ 53) : feq64 (fmul64 x y) (toF64 (n * m)) = true := by
  obtain ⟨s, a, rfl, hs⟩ := feq64_toF64_iff.1 hx
  obtain ⟨t, b, rfl, ht⟩ := feq64_toF64_iff.1 hy
  rw [fmul64_fin]
  refine feq64_roundF64 f64One_pos hnm ?_
  rw [signed_mul, hs, ht]
  ring

/-- R114, R115: the sum of two whole values is exact up to 2^53. -/
theorem feq64_fadd64 {x y : F64} {n m : Int} (hx : feq64 x (toF64 n) = true) (hy : feq64 y (toF64 m) = true)
    (hnm : (n + m).natAbs ≤ 2 ^ 53) : feq64 (fadd64 x y) (toF64 (n + m)) = true := by
  obtain ⟨s, a, rfl, hs⟩ := feq64_toF64_iff.1 hx
  obtain ⟨t, b, rfl, ht⟩ := feq64_toF64_iff.1 hy
  rw [fadd64_fin]
  refine feq64_roundF64 Nat.one_pos hnm ?_
  rw [signed_sum, hs, ht]
  push_cast
  ring

theorem narrowF_fin (N : Nat) (neg : Bool) (m : Nat) :
    narrowF N (.fin neg m) = BitVec.ofInt N (signed neg (m / f64One)) := rfl

/-- R110, R117: values equal as numbers narrow to the same pattern. -/
theorem narrowF_of_feq64 {x : F64} {n : Int} (N : Nat) (h : feq64 x (toF64 n) = true) :
    narrowF N x = BitVec.ofInt N n := by
  obtain ⟨s, a, rfl, hs⟩ := feq64_toF64_iff.1 h
  have ha : a = n.natAbs * f64One := by
    have := congrArg Int.natAbs hs
    rwa [natAbs_signed, Int.natAbs_mul, Int.natAbs_natCast] at this
  have hn : signed s n.natAbs = n := by
    rw [ha, signed_mul_natCast] at hs
    exact Int.eq_of_mul_eq_mul_right (Int.natCast_ne_zero.2 f64One_pos.ne') hs
  rw [narrowF_fin, ha, Nat.mul_div_cancel _ f64One_pos, hn]

/-! ### The scale/offset stage (R120, R121) -/

/-- The computed branch of `LSO_N` is exact for whole coefficients, up to 2^53. -/
theorem narrowF_computed {N : Nat} {v a b : Int} {offset scale : F64} (ha : feq64 offset (toF64 a) = true)
    (hb : feq64 scale (toF64 b) = true) (hbv : (b * v).natAbs ≤ 2 ^ 53) (hsum : (a + b * v).natAbs ≤ 2 ^ 53) :
    narrowF N (fadd64 offset (fmul64 scale (toF64 v))) = BitVec.ofInt N (a + b * v) :=
  narrowF_of_feq64 N (feq64_fadd64 ha (feq64_fmul64 hb (feq64_toF64_self v) hbv) hsum)

/-- Settles O24: the computed branch gives `0 + 1 * v`. -/
theorem bypassIsUnobservable : Obligations.BypassIsUnobservable := by
  intro n v offset scale hv hoffset hscale
  refine ⟨?_, by simp [lso, hoffset, hscale]⟩
  simpa using narrowF_computed (N := n) (v := v) hoffset hscale (by omega) (by omega)

theorem lso_of_not_bypassed {n : Nat} {v : Int} {offset scale : F64}
    (h : ¬(feq64 offset (toF64 0) = true ∧ feq64 scale (toF64 1) = true)) :
    lso n v offset scale = narrowF n (fadd64 offset (fmul64 scale (toF64 v))) :=
  if_pos (by simpa [or_iff_not_imp_left] using h)

/-- R121: for the samples of the unit, `LSO_N` is its computed branch. -/
theorem lso_eq_computed (n : Nat) {v : Int} (offset scale : F64) (hv : v.natAbs ≤ 65535) :
    lso n v offset scale = narrowF n (fadd64 offset (fmul64 scale (toF64 v))) := by
  by_cases h : feq64 offset (toF64 0) = true ∧ feq64 scale (toF64 1) = true
  · obtain ⟨hoffset, hscale⟩ := h
    obtain ⟨hcomputed, hlso⟩ := bypassIsUnobservable n v offset scale hv hoffset hscale
    rw [hcomputed, hlso]
  · exact lso_of_not_bypassed h

/-- Settles O26: bypassed or not, the stage is its computed branch, which is exact. -/
theorem wholeCoefficientsWrapAround : Obligations.WholeCoefficientsWrapAround := by
  intro n v a b hv _ _ hbv hsum
  rw [lso_eq_computed n _ _ hv]
  exact narrowF_computed (feq64_toF64_self a) (feq64_toF64_self b) hbv hsum

/-- R114: a sum is finite of finite values only. -/
theorem isFinite_of_fadd64 {x y : F64} (h : isFinite (fadd64 x y) = true) :
    isFinite x = true ∧ isFinite y = true := by
  cases x <;> cases y
  case inf.inf => simp only [fadd64] at h; split at h <;> simp [isFinite] at h
  all_goals simp_all [fadd64, isFinite]

/-- R114: so is a product. -/
theorem isFinite_of_fmul64 {x y : F64} (h : isFinite (fmul64 x y) = true) :
    isFinite x = true ∧ isFinite y = true := by
  cases x <;> cases y
  case inf.fin | fin.inf => simp only [fmul64] at h; split at h <;> simp [isFinite] at h
  all_goals simp_all [fmul64, isFinite]

theorem isFinite_of_feq64 {x : F64} {n : Int} (h : feq64 x (toF64 n) = true) : isFinite x = true := by
  obtain ⟨s, a, rfl, -⟩ := feq64_toF64_iff.1 h
  rfl

/-- Settles O25: neither coefficient test holds of such a value, and neither operation makes it finite. -/
theorem nonFiniteCoefficientsGiveZero : Obligations.NonFiniteCoefficientsGiveZero := by
  intro n v offset scale h
  have hbranch : ¬(feq64 offset (toF64 0) = true ∧ feq64 scale (toF64 1) = true) := by
    rintro ⟨hoffset, hscale⟩
    simp [isFinite_of_feq64 hoffset, isFinite_of_feq64 hscale] at h
  have hnot : ¬isFinite (fadd64 offset (fmul64 scale (toF64 v))) = true := by
    intro hfinite
    obtain ⟨hoffset, hproduct⟩ := isFinite_of_fadd64 hfinite
    simp [hoffset, isFinite_of_fmul64 hproduct] at h
  rw [lso_of_not_bypassed hbranch, narrowF, if_neg hnot]

/-! ### The branches of the stretch stage (R122, R123) -/

section Stretch

variable {w : Nat} {v : BitVec w} {black white : Half} (tmin tmax drange : Half)

theorem stretch_of_le_black (h : v.toNat ≤ black.toNat) : stretch v black white tmin tmax drange = tmin.setWidth w :=
  if_pos h

theorem stretch_of_white_le (hb : black.toNat < v.toNat) (hw : white.toNat ≤ v.toNat) :
    stretch v black white tmin tmax drange = tmax.setWidth w := by
  rw [stretch, if_neg hb.not_ge, if_pos hw]

theorem stretch_of_between (hb : black.toNat < v.toNat) (hw : v.toNat < white.toNat) :
    stretch v black white tmin tmax drange =
      narrowF w (remap (v.toNat - black.toNat) (white.toNat - black.toNat) drange.toNat) := by
  rw [stretch, if_neg hb.not_ge, if_neg hw.not_ge]

end Stretch

/-- Settles O18: the two clamp branches, narrowed. -/
theorem clampsGiveTargetBounds : Obligations.ClampsGiveTargetBounds := by
  intro w v black white tmin tmax drange
  refine ⟨fun h => ?_, fun hb hw => ?_, fun hinv => ?_⟩
  · rw [stretch_of_le_black _ _ _ h, BitVec.toNat_setWidth]
  · rw [stretch_of_white_le _ _ _ hb hw, BitVec.toNat_setWidth]
  · split_ifs with h
    · exact stretch_of_le_black _ _ _ h
    · exact stretch_of_white_le _ _ _ (by omega) (by omega)

/-! ### The remap as a magnitude (R124) -/

/-- The magnitude of the remap: the rounded quotient, and the rounded product. -/
def remapMag (num den drange : Nat) : Nat :=
  roundMag (roundMag (num * f64One * f64One) (den * f64One) * (drange * f64One)) f64One

/-- `2^(-16)`, in units of `2^(-1074)`. -/
def place16 : Nat := 2 ^ 1058

theorem place16_pos : 0 < place16 := by unfold place16; positivity

theorem f64One_eq_place16 : f64One = 65536 * place16 := by
  rw [f64One, place16, show 65536 = 2 ^ 16 by norm_num, ← pow_add]

/-- Rounding does not pass a 32-bit number of `2^(-16)`s. -/
theorem roundMag_le_place16 {n d k : Nat} (hd : 0 < d) (hk : k < 2 ^ 53) (h : n ≤ k * place16 * d) :
    roundMag n d ≤ k * place16 :=
  roundMag_le hd hk (by rw [place16]) h

theorem lt_f64Limit_of_le_place16 {m k : Nat} (hk : k < 2 ^ 53) (h : m ≤ k * place16) : m < f64Limit := by
  rw [place16] at h
  exact h.trans_lt (representable_mul_two_pow le_rfl hk (by norm_num)).1

theorem toF64_natCast (n : Nat) : toF64 n = .fin false (n * f64One) := by
  simp only [toF64, Int.natAbs_natCast, Int.natCast_nonneg, not_lt, decide_eq_false]

theorem fdiv64_fin {s t : Bool} {a b : Nat} (hb : b ≠ 0) :
    fdiv64 (.fin s a) (.fin t b) = roundF64 (s != t) (a * f64One) b := by
  rw [fdiv64, if_neg hb]

section Remap

variable {num den drange : Nat} (hnum : num < den) (hden : den ≤ 65535)

include hnum hden

/-- A quotient below 1 of 16-bit numbers is at most `1 - 2^(-16)`, and so is what it rounds to. -/
theorem roundMag_quotient_le : roundMag (num * f64One * f64One) (den * f64One) ≤ 65535 * place16 := by
  refine roundMag_le_place16 (Nat.mul_pos (by omega) f64One_pos) (by norm_num) ?_
  calc num * f64One * f64One = num * 65536 * (place16 * f64One) := by rw [f64One_eq_place16]; ring
    _ ≤ 65535 * den * (place16 * f64One) := Nat.mul_le_mul_right _ (by omega)
    _ = _ := by ring

/-- So the remap is at most `DRANGE * (1 - 2^(-16))`. -/
theorem remapMag_le (hdr : drange ≤ 65535) : remapMag num den drange ≤ 65535 * drange * place16 := by
  refine roundMag_le_place16 f64One_pos (by omega) ?_
  calc _ ≤ 65535 * place16 * (drange * f64One) := Nat.mul_le_mul_right _ (roundMag_quotient_le hnum hden)
    _ = _ := by ring

/-- R122, R124: neither operation of the remap overflows, and neither result is negative. -/
theorem remap_eq (hdr : drange ≤ 65535) : remap num den drange = .fin false (remapMag num den drange) := by
  have hquotient := lt_f64Limit_of_le_place16 (by norm_num) (roundMag_quotient_le hnum hden)
  have hproduct := lt_f64Limit_of_le_place16 (by omega) (remapMag_le hnum hden hdr)
  rw [remap, toF64_natCast, toF64_natCast, toF64_natCast,
    fdiv64_fin (Nat.mul_ne_zero (by omega) f64One_pos.ne'), roundF64_of_lt hquotient, fmul64_fin]
  exact roundF64_of_lt hproduct

theorem remapMag_lt (hdr : drange ≤ 65535) (hpos : 1 ≤ drange) : remapMag num den drange < drange * f64One := by
  have := remapMag_le hnum hden hdr
  have hplace := Nat.mul_pos hpos place16_pos
  rw [f64One_eq_place16]
  linarith

end Remap

/-- R124: with `DRANGE = 0` the remap is +0.0. -/
theorem remapMag_zero (num den : Nat) : remapMag num den 0 = 0 := by
  have := roundMag_exact (m := 0) (sig := 0) (e := 0) f64One_pos (by norm_num) rfl
  rw [Nat.zero_mul] at this
  rwa [remapMag, Nat.zero_mul, Nat.mul_zero]

/-- Settles O19: the bounds of the magnitude. -/
theorem remapStaysBelowDeviceRange : Obligations.RemapStaysBelowDeviceRange := by
  intro num den drange _ hnum hden hdr
  refine ⟨_, remap_eq hnum hden hdr, remapMag_lt hnum hden hdr, ?_⟩
  rintro rfl
  exact remapMag_zero num den

/-! ### Monotonicity (R125) -/

theorem remapMag_mono {num num' den : Nat} (hden : 0 < den) (h : num ≤ num') (drange : Nat) :
    remapMag num den drange ≤ remapMag num' den drange := by
  refine roundMag_mono f64One_pos (Nat.mul_le_mul_right _ (roundMag_mono (Nat.mul_pos hden f64One_pos) ?_))
  exact Nat.mul_le_mul_right _ (Nat.mul_le_mul_right _ h)

/-- R124: the remap branch does not wrap where `DRANGE` is at most 2^W. -/
theorem toNat_stretch_of_between {w : Nat} {v : BitVec w} {black white : Half} (tmin tmax : Half) {drange : Half}
    (hdr : drange.toNat ≤ 2 ^ w) (hb : black.toNat < v.toNat) (hw : v.toNat < white.toNat) :
    (stretch v black white tmin tmax drange).toNat =
      remapMag (v.toNat - black.toNat) (white.toNat - black.toNat) drange.toNat / f64One := by
  have hnum : v.toNat - black.toNat < white.toNat - black.toNat := by omega
  have hden : white.toNat - black.toNat ≤ 65535 := by omega
  have hfit : remapMag (v.toNat - black.toNat) (white.toNat - black.toNat) drange.toNat / f64One < 2 ^ w := by
    rcases Nat.eq_zero_or_pos drange.toNat with h0 | hpos
    · rw [h0, remapMag_zero, Nat.zero_div]
      positivity
    · rw [Nat.div_lt_iff_lt_mul f64One_pos]
      exact (remapMag_lt hnum hden (by omega) hpos).trans_le (Nat.mul_le_mul_right _ hdr)
  rw [stretch_of_between _ _ _ hb hw, remap_eq hnum hden (by omega), narrowF_fin, signed_false,
    BitVec.ofInt_natCast, BitVec.toNat_ofNat, Nat.mod_eq_of_lt hfit]

theorem stretch_mono_of_between {w : Nat} {v v' : BitVec w} {black white : Half} (tmin tmax : Half) {drange : Half}
    (hdr : drange.toNat ≤ 2 ^ w) (hb : black.toNat < v.toNat) (hv : v.toNat ≤ v'.toNat)
    (hw : v'.toNat < white.toNat) :
    (stretch v black white tmin tmax drange).toNat ≤ (stretch v' black white tmin tmax drange).toNat := by
  rw [toNat_stretch_of_between _ _ hdr hb (by omega), toNat_stretch_of_between _ _ hdr (by omega) hw]
  exact Nat.div_le_div_right (remapMag_mono (by omega) (by omega) _)

/-- Settles O20: by the branch that each of the two samples takes. -/
theorem stretchIsMonotone : Obligations.StretchIsMonotone := by
  intro w black white tmin tmax drange _ _ hdr
  refine ⟨fun v v' hb hv hw => stretch_mono_of_between _ _ hdr hb hv hw, fun hmin hmax hle hrange v v' hv => ?_⟩
  have hblack {u : BitVec w} (h : u.toNat ≤ black.toNat) :
      (stretch u black white tmin tmax drange).toNat = tmin.toNat := by
    rw [stretch_of_le_black _ _ _ h, BitVec.toNat_setWidth, Nat.mod_eq_of_lt hmin]
  have hwhite {u : BitVec w} (hb : black.toNat < u.toNat) (hw : white.toNat ≤ u.toNat) :
      (stretch u black white tmin tmax drange).toNat = tmax.toNat := by
    rw [stretch_of_white_le _ _ _ hb hw, BitVec.toNat_setWidth, Nat.mod_eq_of_lt hmax]
  rcases Nat.lt_or_ge black.toNat v.toNat with hvb | hvb
  · rcases Nat.lt_or_ge v'.toNat white.toNat with hvw | hvw
    · exact stretch_mono_of_between _ _ hdr hvb hv hvw
    · rw [hwhite (u := v') (by omega) hvw]
      rcases Nat.lt_or_ge v.toNat white.toNat with hw | hw
      · exact (hrange v hvb hw).2
      · exact (hwhite hvb hw).le
  · rw [hblack hvb]
    rcases Nat.lt_or_ge black.toNat v'.toNat with hb | hb
    · rcases Nat.lt_or_ge v'.toNat white.toNat with hw | hw
      · exact (hrange v' hb hw).1
      · rw [hwhite hb hw]
        exact hle
    · exact (hblack hb).ge

/-! ### The binary64 remap on examples and identity operands (R126, R127) -/

/-- Settles O21, by evaluation. -/
theorem remapIsNotTheExactQuotient : Obligations.RemapIsNotTheExactQuotient := by
  refine ⟨rfl, ?_, ?_⟩ <;> decide +kernel

/-- Rounding moves a fraction by at most half of its last place. -/
theorem two_mul_dist_roundMag_le (n : Nat) {d : Nat} (hd : 0 < d) :
    2 * ((roundMag n d * d : Nat) - n : Int).natAbs ≤ d * 2 ^ spacingExp n d := by
  have hscale : roundMag n d * d = roundHalfEven n (d * 2 ^ spacingExp n d) * (d * 2 ^ spacingExp n d) := by
    unfold roundMag
    ring
  rw [hscale]
  exact two_mul_dist_roundHalfEven_le n (by positivity)

/-- A fraction below `2^(e + 53)` has a last place of at most `2^e`. -/
theorem spacingExp_le {n d e : Nat} (hd : 0 < d) (h : n < 2 ^ (53 + e) * d) : spacingExp n d ≤ e := by
  have hlog : Nat.log 2 (n / d) < 53 + e := by
    rcases Nat.eq_zero_or_pos (n / d) with h0 | hpos
    · simp [h0]
    · exact Nat.log_lt_of_lt_pow hpos.ne' ((Nat.div_lt_iff_lt_mul hd).2 h)
  unfold spacingExp
  omega

/-- A sample below `2^(k+1)` is less than `2^(k+1-w)` of the top value `2^w - 1`. -/
theorem mul_two_pow_lt_mul_top {w k v : Nat} (hkw : k < w) (hhigh : v < 2 ^ (k + 1)) (hv : v < 2 ^ w - 1) :
    v * 2 ^ w < 2 ^ (k + 1) * (2 ^ w - 1) := by
  rw [Nat.mul_sub_one]
  refine Nat.lt_sub_of_add_lt ?_
  rcases (Nat.pow_le_pow_right (n := 2) Nat.two_pos hkw).lt_or_eq with hlt | heq
  · calc v * 2 ^ w + 2 ^ (k + 1) < (v + 1) * 2 ^ w := by rw [Nat.succ_mul]; omega
      _ ≤ 2 ^ (k + 1) * 2 ^ w := Nat.mul_le_mul_right _ hhigh
  · calc v * 2 ^ w + 2 ^ (k + 1) = (v + 1) * 2 ^ w := by rw [heq, Nat.succ_mul]
      _ < 2 ^ (k + 1) * 2 ^ w := Nat.mul_lt_mul_of_pos_right (by omega) (by positivity)

/-- The last place of the quotient of such a sample by the top value. -/
theorem spacingExp_quotient_le {w k v : Nat} (hw : w ≤ 16) (hkw : k < w) (hhigh : v < 2 ^ (k + 1))
    (hv : v < 2 ^ w - 1) : spacingExp (v * f64One * f64One) ((2 ^ w - 1) * f64One) ≤ 1022 + k - w := by
  have hone : f64One = 2 ^ w * 2 ^ (1074 - w) := by
    rw [f64One, ← pow_add, show w + (1074 - w) = 1074 by omega]
  have hscale : 2 ^ (k + 1) * 2 ^ (1074 - w) = 2 ^ (53 + (1022 + k - w)) := by
    rw [← pow_add, show k + 1 + (1074 - w) = 53 + (1022 + k - w) by omega]
  refine spacingExp_le (Nat.mul_pos (by omega) f64One_pos) ?_
  calc v * f64One * f64One = v * 2 ^ w * (2 ^ (1074 - w) * f64One) := by rw [hone]; ring
    _ < 2 ^ (k + 1) * (2 ^ w - 1) * (2 ^ (1074 - w) * f64One) :=
        Nat.mul_lt_mul_of_pos_right (mul_two_pow_lt_mul_top hkw hhigh hv) (Nat.mul_pos (by positivity) f64One_pos)
    _ = 2 ^ (k + 1) * 2 ^ (1074 - w) * ((2 ^ w - 1) * f64One) := by ring
    _ = _ := by rw [hscale]

/-- The quotient of `v` by `2^w - 1` is off by at most half its last place; scaled back by `2^w - 1`, that is less than
half the last place of `v`. So the remap is `v` unless `v` is a power of two, below which the last place halves. -/
theorem remapMag_identity {w k v : Nat} (hw : w ≤ 16) (hlow : 2 ^ k < v) (hhigh : v < 2 ^ (k + 1))
    (hv : v < 2 ^ w - 1) : remapMag v (2 ^ w - 1) (2 ^ w - 1) = v * f64One := by
  have hkw : k < w := (Nat.pow_lt_pow_iff_right one_lt_two).1 (by omega)
  have hden : 0 < (2 ^ w - 1) * f64One := Nat.mul_pos (by omega) f64One_pos
  have hdist := two_mul_dist_roundMag_le (v * f64One * f64One) hden
  have hplace : (2 ^ w - 1) * f64One * 2 ^ spacingExp (v * f64One * f64One) ((2 ^ w - 1) * f64One) <
      2 ^ (1022 + k) * f64One := by
    calc _ ≤ (2 ^ w - 1) * f64One * 2 ^ (1022 + k - w) :=
          Nat.mul_le_mul_left _ (Nat.pow_le_pow_right Nat.two_pos (spacingExp_quotient_le hw hkw hhigh hv))
      _ = (2 ^ w - 1) * (2 ^ (1022 + k - w) * f64One) := by ring
      _ < 2 ^ w * (2 ^ (1022 + k - w) * f64One) :=
          Nat.mul_lt_mul_of_pos_right (by omega) (Nat.mul_pos (by positivity) f64One_pos)
      _ = _ := by rw [← mul_assoc, ← pow_add, show w + (1022 + k - w) = 1022 + k by omega]
  refine roundMag_of_near (sig := v * 2 ^ (52 - k)) (e := 1022 + k) f64One_pos ?_ ?_ ?_ ?_
  · rw [f64One, mul_assoc, ← pow_add, show 52 - k + (1022 + k) = 1074 by omega]
  · calc 2 ^ 52 = 2 ^ k * 2 ^ (52 - k) := by rw [← pow_add, show k + (52 - k) = 52 by omega]
      _ < _ := Nat.mul_lt_mul_of_pos_right hlow (by positivity)
  · calc v * 2 ^ (52 - k) < 2 ^ (k + 1) * 2 ^ (52 - k) := Nat.mul_lt_mul_of_pos_right hhigh (by positivity)
      _ = 2 ^ 53 := by rw [← pow_add, show k + 1 + (52 - k) = 53 by omega]
  · omega

/-- R127: the remap gives back every sample between 0 and `2^w - 1`. For the powers of two, below which the last place
halves, it is evaluated. -/
theorem remap_identity {w v : Nat} (hw : w ≤ 16)
    (hpow : ∀ k < w, remap (2 ^ k) (2 ^ w - 1) (2 ^ w - 1) = toF64 (2 ^ k : Nat)) (hpos : 0 < v)
    (hv : v < 2 ^ w - 1) : remap v (2 ^ w - 1) (2 ^ w - 1) = toF64 v := by
  have hlow := Nat.pow_log_le_self 2 hpos.ne'
  have hhigh := Nat.lt_pow_succ_log_self (b := 2) one_lt_two v
  have htop : 2 ^ w ≤ 2 ^ 16 := Nat.pow_le_pow_right (by norm_num) hw
  rcases hlow.eq_or_lt with heq | hlt
  · rw [← heq]
    exact hpow _ ((Nat.pow_lt_pow_iff_right one_lt_two).1 (by omega))
  · rw [remap_eq hv (by omega) (by omega), remapMag_identity hw hlt hhigh hv, toF64_natCast]

/-- R127: the identity operands of width `w`. -/
theorem stretch_identity {w : Nat} (hw : w ≤ 16) {top : Half} (htop : top.toNat = 2 ^ w - 1)
    (hpow : ∀ k < w, remap (2 ^ k) (2 ^ w - 1) (2 ^ w - 1) = toF64 (2 ^ k : Nat)) (v : BitVec w) :
    stretch v 0 top 0 top top = v := by
  have hblack : (0 : Half).toNat = 0 := rfl
  rcases Nat.eq_zero_or_pos v.toNat with h0 | hpos
  · rw [stretch_of_le_black _ _ _ h0.le]
    exact BitVec.eq_of_toNat_eq (by simp [h0])
  · rcases Nat.lt_or_ge v.toNat top.toNat with hlt | hge
    · rw [stretch_of_between _ _ _ (hblack ▸ hpos) hlt, hblack, Nat.sub_zero, Nat.sub_zero, htop,
        remap_identity hw hpow hpos (htop ▸ hlt), narrowF_toF64, BitVec.ofInt_natCast, BitVec.ofNat_toNat,
        BitVec.setWidth_eq]
    · rw [stretch_of_white_le _ _ _ (hblack ▸ hpos) hge]
      have := v.isLt
      refine BitVec.eq_of_toNat_eq ?_
      rw [BitVec.toNat_setWidth, Nat.mod_eq_of_lt (by omega)]
      omega

/-- Settles O22: the identity operands of W = 8, with its 8 powers of two evaluated. -/
theorem identityStretchOfBytes : Obligations.IdentityStretchOfBytes :=
  stretch_identity (by norm_num) rfl (by decide +kernel)

/-- Settles O23: the identity operands of W = 16, with its 16 powers of two evaluated. -/
theorem identityStretchOfHalves : Obligations.IdentityStretchOfHalves :=
  stretch_identity (by norm_num) rfl (by decide +kernel)

end Sys2Proof.Proofs

/-! PVS8 (41_pvs8.md): one sample in place, and the whole command. -/

namespace Sys2Proof.Proofs

open Sys2Proof Sys2Proof.Machine Sys2Proof.Laws

/-- What PVS8 stores for a sample: the image of the byte it reads, at that byte's own address (R150). -/
theorem sampleCells_pvs8 (d : Operands) (m : Memory) (k : Word) :
    sampleCells (.pvs8 d) m k = [(effAddr d.src k 1, pvs8Sample d (readByte m (effAddr d.src k 1)))] := by
  simp only [sampleCells, storedCells, srcElemSize, dstElemSize, dstBase, Instr.ops, readLE_one, BitVec.ofNat_toNat,
    BitVec.setWidth_eq, cellsLE_8]

/-- A sample of PVS8 is accessible where its one byte is. -/
theorem sampleAccessible_pvs8 {d : Operands} {s : State} (h : accessible s (effAddr d.src s.idx 1)) :
    sampleAccessible (.pvs8 d) s := by
  simpa [sampleAccessible] using h

/-- Settles O10: the sample is the store of one byte, read at the address it is stored at. -/
theorem pvs8TransformsSample : Obligations.Pvs8TransformsSample := by
  intro d s hp ea
  refine ⟨fun hunmapped => ?_, fun hwf hacc => ?_⟩
  · exact firstUnmappedByteFaults (.pvs8 d) s ea hp (.inl (by simp [ea, hunmapped]))
  · have hcells : instrElement (.pvs8 d) s = .ok [(ea, pvs8Sample d (readByte s.mem ea))] :=
      (instrElement_of_accessible (sampleAccessible_pvs8 hacc)).trans (congrArg _ (sampleCells_pvs8 d s.mem s.idx))
    exact ⟨writeByte s.mem ea (pvs8Sample d (readByte s.mem ea)), exec_of_elementOk hp hcells,
      readByte_writeByte_self hwf ea _, fun a ha => readByte_writeByte_ne s.mem _ ha⟩

/-- Settles O55: PVS8 is a command in place, and at most 2^32 samples of one byte do not wrap onto each
other; its index is that of the same run as `run_command` has it. -/
theorem wholePvs8Command : Obligations.WholePvs8Command := by
  intro d s hwf hst hin hacc
  have hfit : 1 * d.size.toNat ≤ 2 ^ 32 := (Nat.one_mul _).trans_le d.size.isLt.le
  have hbuffer : ∀ x < 1 * d.size.toNat, accessible s (d.src + BitVec.ofNat 32 x) := by simpa using hacc
  have hsamples : ∀ k < d.size.toNat,
      ∀ a ∈ sourceBytes (.pvs8 d) (BitVec.ofNat 32 k) ++ destBytes (.pvs8 d) (BitVec.ofNat 32 k), accessible s a := by
    simpa [effAddr_ofNat] using hacc
  obtain ⟨t, hrun, hidle, hdone, hcells, hframe⟩ := run_inPlace (i := .pvs8 d) rfl hfit hwf hst hin hbuffer
  obtain ⟨u, hrun', -, -, hidx, -⟩ := run_command (i := .pvs8 d) hst hin hsamples
  obtain rfl : t = u := Host.Outcome.next.inj (hrun.symm.trans hrun')
  refine ⟨t, hrun, hidle, hdone, hidx, fun k hk => ?_, fun a ha => hframe a ?_⟩
  · have himage := hcells k hk
    rw [sampleCells_pvs8, effAddr_ofNat, Nat.one_mul] at himage
    exact himage _ (List.mem_singleton_self _)
  · simpa [dstElemSize, Instr.ops] using ha

end Sys2Proof.Proofs

/-! PVS16 (42_pvs16.md): one sample, the BZERO convention, and the whole command without overlap. -/

namespace Sys2Proof.Proofs

open Sys2Proof Sys2Proof.Machine Sys2Proof.Laws

/-- R37: a sample that stores one 16-bit value leaves its two bytes at the destination, little-endian, and changes
nothing else but `IDX`. -/
theorem exec_of_halfStored {i : Instr} {s : State} {da : Addr} {out : Half} (hwf : Memory.wf s.mem)
    (hp : samplePending i s) (hcells : instrElement i s = .ok (cellsLE da out)) :
    ∃ m : Memory, exec i s = .next { s with mem := m, idx := s.idx + 1 } ∧
      readByte m da = out.extractLsb' 0 8 ∧ readByte m (da + 1) = out.extractLsb' 8 8 ∧
      ∀ a : Addr, a ≠ da → a ≠ da + 1 → readByte m a = readByte s.mem a := by
  have hstored : ∀ c ∈ cellsLE da out, readByte (writeCells s.mem (cellsLE da out)) c.1 = c.2 := fun _ hc =>
    readByte_writeCells_mem hwf (by simp [byteAddrs_two]) hc
  refine ⟨writeCells s.mem (cellsLE da out), exec_of_elementOk hp hcells, ?_, ?_, fun a hlow hhigh => ?_⟩
  · exact hstored (da, out.extractLsb' 0 8) (by simp [cellsLE_16])
  · exact hstored (da + 1, out.extractLsb' 8 8) (by simp [cellsLE_16])
  · exact readByte_writeCells_cellsLE_ne s.mem out (by simpa [byteAddrs_two] using And.intro hlow hhigh)

/-- Settles O11: the sample is the store of one 16-bit value, computed from the two bytes read. -/
theorem pvs16TransformsSample : Obligations.Pvs16TransformsSample := by
  intro d s hwf hp hacc sa da p out
  have hcells : instrElement (.pvs16 d) s = .ok (cellsLE da out) :=
    (instrElement_of_accessible hacc).trans (congrArg _ (sampleCells_pvs16 d s.mem s.idx))
  exact exec_of_halfStored hwf hp hcells

/-- Settles O27: the sum is exact (O26), and modulo 65536 it is `v + 32768`, which is a 16-bit number. -/
theorem bzeroConventionShiftsByHalf : Obligations.BzeroConventionShiftsByHalf := by
  refine ⟨by decide +kernel, by decide +kernel, fun p k hk => ?_⟩
  have hlow := p.le_toInt
  have hhigh := p.toInt_lt
  rw [wholeCoefficientsWrapAround 16 p.toInt (32768 + 65536 * k) 1 (by omega) (by omega) (by decide) (by omega)
    (by omega), BitVec.toNat_ofInt]
  omega

/-! ### Commands whose destination does not overlap their source (R161, R177) -/

/-- A byte outside the destination buffer is in no destination sample. -/
theorem not_mem_dest_of_outside {i : Instr} {a : Addr}
    (ha : ∀ y < dstElemSize i * i.ops.size.toNat, a ≠ dstBase i + BitVec.ofNat 32 y) {j : Nat}
    (hj : j < i.ops.size.toNat) : a ∉ destBytes i (BitVec.ofNat 32 j) := fun hmem => by
  obtain ⟨y, hy, he⟩ := offset_of_mem_sample hj hmem
  exact ha y hy he

/-- The samples of a command are accessible where its two buffers are. -/
theorem samples_accessible {i : Instr} {s : State}
    (hsrc : ∀ x < srcElemSize i * i.ops.size.toNat, accessible s (i.ops.src + BitVec.ofNat 32 x))
    (hdst : ∀ y < dstElemSize i * i.ops.size.toNat, accessible s (dstBase i + BitVec.ofNat 32 y)) :
    ∀ k < i.ops.size.toNat, ∀ a ∈ sourceBytes i (BitVec.ofNat 32 k) ++ destBytes i (BitVec.ofNat 32 k),
      accessible s a := fun k hk a ha => by
  rcases List.mem_append.1 ha with ha | ha
  · obtain ⟨x, hx, rfl⟩ := offset_of_mem_sample hk ha
    exact hsrc x hx
  · obtain ⟨y, hy, rfl⟩ := offset_of_mem_sample hk ha
    exact hdst y hy

section Apart

variable {i : Instr} (hapart : ∀ x < srcElemSize i * i.ops.size.toNat, ∀ y < dstElemSize i * i.ops.size.toNat,
  i.ops.src + BitVec.ofNat 32 x ≠ dstBase i + BitVec.ofNat 32 y)
include hapart

/-- A destination that misses a byte of memory, as it misses the source, does not wrap onto itself. -/
theorem dest_fits_of_apart : dstElemSize i * i.ops.size.toNat ≤ 2 ^ 32 := by
  by_contra! hbig
  have hle : dstElemSize i * i.ops.size.toNat ≤ srcElemSize i * i.ops.size.toNat :=
    Nat.mul_le_mul_right _ (dstElemSize_le_srcElemSize i)
  refine hapart 0 (by omega) (i.ops.src - dstBase i).toNat ((BitVec.isLt _).trans hbig) ?_
  rw [BitVec.ofNat_toNat, BitVec.setWidth_eq, BitVec.add_comm (dstBase i), BitVec.sub_add_cancel]
  exact BitVec.add_zero _

/-- R161, R177: a command whose buffers do not overlap completes with the image of every source sample at acceptance in
its destination sample, and every byte outside the destination as it was. -/
theorem run_apart {s : State} (hwf : Memory.wf s.mem) (hst : s.st = .idle) (hin : s.inbox = [.issue (encode i)])
    (hsrc : ∀ x < srcElemSize i * i.ops.size.toNat, accessible s (i.ops.src + BitVec.ofNat 32 x))
    (hdst : ∀ y < dstElemSize i * i.ops.size.toNat, accessible s (dstBase i + BitVec.ofNat 32 y)) :
    ∃ t, Sys2Proof.core.run (i.ops.size.toNat + 2) s = .next t ∧ t.st = .idle ∧ t.done = true ∧ t.idx = i.ops.size ∧
      (∀ k < i.ops.size.toNat, ∀ c ∈ sampleCells i s.mem (BitVec.ofNat 32 k), readByte t.mem c.1 = c.2) ∧
      ∀ a : Addr, (∀ y < dstElemSize i * i.ops.size.toNat, a ≠ dstBase i + BitVec.ofNat 32 y) →
        readByte t.mem a = readByte s.mem a := by
  obtain ⟨t, hrun, hidle, hdone, hidx, hmem⟩ := run_command hst hin (samples_accessible hsrc hdst)
  refine ⟨t, hrun, hidle, hdone, hidx, fun k hk c hc => ?_, fun a ha => ?_⟩ <;> rw [hmem]
  · refine readByte_memAfter_cell hwf hk (fun b hb j hj => ?_)
      (fun b hb j hkj hj => not_mem_dest_of_mem_dest (dest_fits_of_apart hapart) hkj hj hb) hc
    obtain ⟨x, hx, rfl⟩ := offset_of_mem_sample hk hb
    exact not_mem_dest_of_outside (hapart x hx) (hj.trans hk)
  · exact readByte_memAfter_of_not_written i s.mem (Nat.zero_le _) fun j _ hj => not_mem_dest_of_outside ha hj

end Apart

/-- Settles O56: every sample is the image of its source at acceptance, stored little-endian. -/
theorem wholePvs16Command : Obligations.WholePvs16Command := by
  intro d s hwf hst hin hacc hapart
  obtain ⟨t, hrun, hidle, hdone, hidx, hcells, hframe⟩ := run_apart (i := .pvs16 d)
    (fun x hx y hy => hapart x y hx hy) hwf hst hin (fun x hx => (hacc x hx).1) (fun y hy => (hacc y hy).2)
  refine ⟨t, hrun, hidle, hdone, hidx, fun k hk => ?_, hframe⟩
  have himage := hcells k hk
  rw [sampleCells_pvs16, effAddr_ofNat, effAddr_ofNat] at himage
  exact readHalf_of_cells himage

end Sys2Proof.Proofs

/-! PVS32 (43_pvs32.md): the conversion in its three modes, one sample, and the whole command without overlap. -/

namespace Sys2Proof.Proofs

open Sys2Proof Sys2Proof.Machine Sys2Proof.Laws

/-- Settles O57: every sample is the image of its source word at acceptance, stored little-endian. -/
theorem wholePvs32Command : Obligations.WholePvs32Command := by
  intro d s hwf hst hin hsrc hdst hapart
  obtain ⟨t, hrun, hidle, hdone, hidx, hcells, hframe⟩ := run_apart (i := .pvs32 d)
    (fun x hx y hy => hapart x y hx hy) hwf hst hin hsrc hdst
  refine ⟨t, hrun, hidle, hdone, hidx, fun k hk => ?_, hframe⟩
  have himage := hcells k hk
  rw [sampleCells_pvs32, effAddr_ofNat, effAddr_ofNat] at himage
  exact readHalf_of_cells himage

/-- Settles O12: the sample is the store of one 16-bit value, computed from the four bytes read. -/
theorem pvs32TransformsSample : Obligations.Pvs32TransformsSample := by
  intro d s hwf hp hacc sa da raw out
  have hcells : instrElement (.pvs32 d) s = .ok (cellsLE da out) :=
    (instrElement_of_accessible hacc).trans (congrArg _ (sampleCells_pvs32 d s.mem s.idx))
  exact exec_of_halfStored hwf hp hcells

/-! ### The modes of the conversion (R171) -/

section Modes

variable {raw bpp : Word} (tmax : Half)

theorem conv32_of_float (hmode : bpp.toInt = -32) : conv32 raw bpp tmax = narrowF32 raw := if_pos hmode

theorem conv32_of_guarded (hmode : bpp.toInt = 32) (hraw : 16777216 ≤ raw.toInt) : conv32 raw bpp tmax = tmax := by
  rw [conv32, if_neg (by omega), if_pos ⟨hmode, hraw⟩]

theorem conv32_of_not_guarded (hfloat : bpp.toInt ≠ -32) (hguard : ¬(bpp.toInt = 32 ∧ 16777216 ≤ raw.toInt)) :
    conv32 raw bpp tmax = raw.setWidth 16 := by
  rw [conv32, if_neg hfloat]
  exact if_neg hguard

/-- R172: an integer the guard does not catch is narrowed modulo 2^16. -/
theorem toNat_conv32_of_le (hraw : raw.toInt ≤ 16777215) :
    ((conv32 raw 32 tmax).toNat : Int) = raw.toInt % 65536 := by
  rw [conv32_of_not_guarded tmax (by decide) (by omega), BitVec.toNat_setWidth, BitVec.toInt_eq_toNat_cond]
  split <;> omega

end Modes

/-- Settles O33: at most 16777215 a sample is narrowed modulo 2^16, which is `s` or `s + 65536` for a
sample of at most 16 bits; above, the guard fires. -/
theorem integerModeByRanges : Obligations.IntegerModeByRanges := by
  intro raw tmax
  have hwrap := toNat_conv32_of_le (raw := raw) tmax
  refine ⟨fun _ _ => ?_, fun _ hhigh => hwrap hhigh, conv32_of_guarded tmax rfl, fun _ _ => ?_,
    fun _ => hwrap (by omega)⟩ <;>
  · rw [hwrap (by omega)]
    omega

/-- R117: a finite value narrows to its integer part modulo 2^16. -/
theorem toNat_narrowF_fin (neg : Bool) (m : Nat) :
    ((narrowF 16 (.fin neg m)).toNat : Int) = truncZ (.fin neg m) % 65536 := by
  rw [narrowF_fin, truncZ_fin, BitVec.toNat_ofInt]
  omega

/-- Settles O35: below 1 in magnitude the integer part is 0, and below 65536 it is its own remainder modulo 2^16. -/
theorem floatModeTruncates : Obligations.FloatModeTruncates := by
  intro raw tmax
  rw [conv32_of_float tmax rfl, narrowF32]
  refine ⟨fun neg m hval => ?_, fun hnot => ?_⟩
  · rw [hval]
    have hmod := toNat_narrowF_fin neg m
    refine ⟨hmod, ?_, ?_⟩ <;> rw [truncZ_fin] at hmod
    · rintro rfl hsmall
      simpa [Nat.div_eq_of_lt hsmall] using hmod
    · rintro rfl hrange
      have hlt : m / f64One < 65536 := Nat.div_lt_of_lt_mul (by rwa [Nat.mul_comm])
      rw [signed_false] at hmod
      exact Int.ofNat_inj.1 (hmod.trans (Int.emod_eq_of_lt (Int.natCast_nonneg _) (Int.ofNat_lt.2 hlt)))
  · rw [narrowF, if_neg (by simp [hnot])]

/-- Settles O36: the stretch of `TMAX`, in each of its three branches. -/
theorem guardedSampleOutput : Obligations.GuardedSampleOutput := by
  intro d raw hmode hraw
  rw [pvs32Sample, conv32_of_guarded d.tmax hmode hraw, stretchOps]
  refine ⟨fun hb hw => ?_, fun hb => ?_, fun hb hw => stretch_of_between _ _ _ hb hw⟩
  · rw [stretch_of_white_le _ _ _ hb hw, BitVec.setWidth_eq]
  · rw [stretch_of_le_black _ _ _ hb, BitVec.setWidth_eq]

/-- Settles O34: neither named mode is selected, and narrowing keeps the low bits. -/
theorem otherBppKeepsLowHalf : Obligations.OtherBppKeepsLowHalf := by
  intro raw bpp tmax hint hfloat
  rw [conv32_of_not_guarded tmax hfloat fun h => hint h.1, BitVec.setWidth_eq_extractLsb' (by norm_num)]

/-- Settles O37: the word's binary32 reading is evaluated; as an integer it is above the guard's threshold. -/
theorem onePatternThreeReadings : Obligations.OnePatternThreeReadings := by
  refine ⟨by decide, fun tmax => ⟨?_, conv32_of_guarded tmax rfl (by decide), fun bpp hint hfloat => ?_⟩⟩
  · rw [conv32_of_float tmax rfl]
    decide +kernel
  · rw [otherBppKeepsLowHalf _ _ tmax hint hfloat]
    decide

end Sys2Proof.Proofs

/-! Faults (60_exceptions.md): the engine that runs no command waits, and the halted one keeps its registers. -/

namespace Sys2Proof.Proofs

open Sys2Proof Sys2Proof.Machine Sys2Proof.Laws

/-- Settles O9: without a host move the step is the engine's turn, and no engine step is enabled. -/
theorem quietEngineWaits : Obligations.QuietEngineWaits :=
  fun _ hst hin => (step_of_noMove hin).trans (engineTurn_of_not_busy hst)

theorem eq_of_engineTurn_of_not_busy {s t : State} (hst : s.st ≠ .busy) (h : engineTurn s = .next t) : t = s := by
  rw [engineTurn_of_not_busy hst] at h
  cases h
  rfl

/-- A host access, or a move in which the engine has no step to take, writes no register of the engine (R39, R63). -/
theorem hostTurn_registers_of_not_busy {m : HostMove} {s t : State} (hst : s.st ≠ .busy)
    (h : hostTurn m s = .next t) (hm : ∀ raw, m ≠ .issue raw) (hreset : m ≠ .reset) :
    t.st = s.st ∧ t.cause = s.cause ∧ t.faddr = s.faddr ∧ t.idx = s.idx ∧ t.desc = s.desc ∧ t.done = s.done := by
  cases m with
  | issue raw => exact absurd rfl (hm raw)
  | reset => exact absurd rfl hreset
  | poke a v => obtain ⟨-, -, rfl⟩ := hostWrite_next_cases h; simp
  | peek a => simp [hostRead_next_cases h]
  | readReg r => cases h; simp
  | wait => simp [eq_of_engineTurn_of_not_busy hst h]

/-- Settles O45: the halted engine's own turn changes nothing, a presented descriptor waits (R34), and of the host's
other moves only reset writes the registers. -/
theorem onlyResetLeavesHalted : Obligations.OnlyResetLeavesHalted := by
  intro s t hst ht hreset
  have hbusy : s.st ≠ .busy := by simp [hst]
  rcases step_cases s with ⟨-, e⟩ | ⟨_, _, -, -, e⟩ | ⟨_, _, -, hidle, -⟩ | ⟨m, rest, hin, hm, e⟩
  · simp [eq_of_engineTurn_of_not_busy hbusy (e ▸ ht), hst]
  · simp [eq_of_engineTurn_of_not_busy hbusy (e ▸ ht), hst]
  · simp [hst] at hidle
  · rw [← hst]
    exact hostTurn_registers_of_not_busy (s := { s with inbox := rest }) hbusy (e ▸ ht) hm
      fun heq => hreset rest (heq ▸ hin)

end Sys2Proof.Proofs

/-! Reset and hazards (70_reset_and_hazards.md): a command ends, reset from any state, and what a reset leaves of the
command it abandons. -/

namespace Sys2Proof.Proofs

open Sys2Proof Sys2Proof.Machine Sys2Proof.Laws

/-! ### A command ends (R226) -/

/-- The command has completed, or has faulted on an access (R38, R197). -/
def commandEnded (t : State) : Prop :=
  t.st ≠ .busy ∧ (t.st = .idle → t.done = true) ∧ (t.st = .halted → t.cause = .accessFault)

theorem commandEnded_settle {s : State} : commandEnded (settle s) ↔ commandEnded s := by
  simp only [commandEnded, settle_st, settle_done, settle_cause]

theorem commandEnded_complete (s : State) : commandEnded (complete s) := by
  simp [commandEnded]

theorem commandEnded_raiseAccess (a : Addr) (s : State) : commandEnded (raiseFault (.accessFault a) s) := by
  simp [commandEnded]

/-- Without device memory the command in execution has a step: its next sample is stored, or the step ends it. -/
theorem exec_of_noDevice {i : Instr} {s : State} (h : s.Inv) (hx : inExecution i s)
    (hdev : ∀ a : Addr, isDevice s a = false) :
    (∃ cells, samplePending i s ∧ exec i s = .next { applySample cells s with idx := s.idx + 1 }) ∨
      ∃ u, exec i s = .next u ∧ commandEnded u := by
  have hle : s.idx.toNat ≤ i.ops.size.toNat := by simpa [hx.2] using h.busyIdx hx.1
  rcases hle.lt_or_eq with hlt | heq
  · have hp : samplePending i s := ⟨hx, hlt⟩
    rcases instrElement_cases i s with ⟨cells, hw, -⟩ | ⟨a, hw, -⟩ | ⟨b, -, -, hb⟩
    · exact .inl ⟨cells, hp, exec_of_elementOk hp hw⟩
    · exact .inr ⟨_, exec_of_elementUnmapped hp hw, commandEnded_raiseAccess a s⟩
    · simp [hdev b] at hb
  · exact .inr ⟨_, exec_of_allProcessed hx (BitVec.eq_of_toNat_eq heq), commandEnded_complete s⟩

/-- With no move of the host, the step of the machine is that step, settled. -/
theorem step_of_noDevice {i : Instr} {s : State} (h : s.Inv) (hx : inExecution i s) (hin : s.inbox = [])
    (hdev : ∀ a : Addr, isDevice s a = false) :
    (∃ cells, samplePending i s ∧ step s = .next { applySample cells s with idx := s.idx + 1 }) ∨
      ∃ t, step s = .next t ∧ commandEnded t := by
  have hstep : step s = settled (exec i s) := (step_of_noMove hin).trans (engineTurn_busy hx.1 hx.2)
  rcases exec_of_noDevice h hx hdev with ⟨cells, hp, hu⟩ | ⟨u, hu, hended⟩ <;> rw [hu] at hstep
  · refine .inl ⟨cells, hp, ?_⟩
    rw [hstep, settled, settle_of_busy (by exact hx.1)]
  · exact .inr ⟨settle u, hstep, commandEnded_settle.2 hended⟩

/-- A word below another does not wrap by one step (R24). -/
theorem toNat_succ_of_lt {x y : Word} (h : x.toNat < y.toNat) : (x + 1).toNat = x.toNat + 1 := by
  have hy := y.isLt
  have h1 : (1 : Word).toNat = 1 := rfl
  exact BitVec.toNat_add_of_lt (by omega)

/-- R226: each sample stored leaves one sample less, so the steps left are at most the samples left and one. -/
theorem run_ends_of_noDevice {i : Instr} {n : Nat} {s : State} (hn : i.ops.size.toNat - s.idx.toNat = n) (h : s.Inv)
    (hx : inExecution i s) (hin : s.inbox = []) (hdev : ∀ a : Addr, isDevice s a = false) :
    ∃ k t, k ≤ n + 1 ∧ Sys2Proof.core.run k s = .next t ∧ commandEnded t := by
  induction n using Nat.strong_induction_on generalizing s with
  | _ n ih =>
    rcases step_of_noDevice h hx hin hdev with ⟨cells, hp, hstep⟩ | ⟨t, hstep, hended⟩
    · have hidx : (s.idx + 1).toNat = s.idx.toNat + 1 := by
        have := i.ops.size.isLt
        exact BitVec.toNat_add_of_lt (by have := hp.2; simp; omega)
      obtain ⟨k, t, hk, hrun, hended⟩ := ih (i.ops.size.toNat - (s.idx + 1).toNat) (by have := hp.2; omega)
        (s := { applySample cells s with idx := s.idx + 1 }) rfl (inv_sample h hp cells) hx hin hdev
      exact ⟨k + 1, t, by omega, (run_succ hstep k).trans hrun, hended⟩
    · exact ⟨1, t, by omega, run_succ hstep 0, hended⟩

/-- Settles O59: the command is the one in `DESC`, and its samples left are `SIZE - IDX`. -/
theorem commandEndsWithinSizePlusOne : Obligations.CommandEndsWithinSizePlusOne := by
  intro s h hst hin hdev
  cases hi : descriptorInstr s.desc with
  | none => exact absurd (descriptorInstr_eq_none.1 hi) (h.busyOpc hst)
  | some i =>
    have hd := descriptorInstr_eq_some.1 hi
    exact run_ends_of_noDevice (by rw [hd, instrDescriptor_ops]) h ⟨hst, hd⟩ hin hdev

/-! ### Reset from any state (R220) -/

theorem step_of_reset {s : State} {rest : List HostMove} (hin : s.inbox = .reset :: rest) :
    step s = hostReset { s with inbox := rest } :=
  step_of_otherMove hin (by simp)

theorem inExecution_of_currentInstr {i : Instr} {s : State} (h : currentInstr s = some i) : inExecution i s := by
  unfold currentInstr at h
  split at h
  · rename_i hst; exact ⟨hst, descriptorInstr_eq_some.1 h⟩
  · cases h

/-- The sample in flight stops at device memory only where a sample is pending that meets it. -/
theorem meetsDevice_of_inFlight {s : State} {b : Addr} (h : inFlight s = .device b) :
    ∃ i, samplePending i s ∧ meetsDevice i s := by
  unfold inFlight at h
  split at h
  · rename_i i hi
    split at h
    · rename_i hlt
      exact ⟨i, ⟨inExecution_of_currentInstr hi, hlt⟩, meetsDevice_of_instrElement h⟩
    · cases h
  · cases h

/-- Reset is refused only where the sample in flight meets device memory. -/
theorem exists_hostReset {s : State} (h : ∀ i, samplePending i s → ¬ meetsDevice i s) :
    ∃ t, hostReset s = .next t := by
  unfold hostReset
  split
  · exact ⟨_, rfl⟩
  · exact ⟨_, rfl⟩
  · rename_i b hb
    obtain ⟨i, hp, hm⟩ := meetsDevice_of_inFlight hb
    exact absurd hm (h i hp)

/-- R220, R40: the registers a reset leaves, and what it does not touch. -/
theorem hostReset_registers {s t : State} (h : hostReset s = .next t) :
    (t.st = .idle ∧ t.done = false ∧ t.cause = .none ∧ t.faddr = 0 ∧ t.idx = 0) ∧ t.map = s.map ∧
      t.inbox = s.inbox := by
  obtain ⟨l, cells, rfl, -⟩ := hostReset_next_cases h
  exact ⟨⟨rfl, rfl, rfl, rfl, rfl⟩, rfl, rfl⟩

/-- Outside `BUSY` no sample is in flight and no byte is unspecified, so a reset leaves memory as it was. -/
theorem hostReset_mem_of_not_busy {s t : State} (hst : s.st ≠ .busy) (h : hostReset s = .next t) :
    t.mem = s.mem := by
  obtain ⟨l, cells, rfl, ⟨rfl, rfl⟩ | ⟨_, _, hbusy, -⟩⟩ := hostReset_next_cases h
  · have hnone : touchedAtReset s false = [] := by simp [touchedAtReset, currentInstr, hst]
    rw [hnone]
    rfl
  · exact absurd hbusy hst

/-- Settles O43: the step is `hostReset`, which only device memory under the sample in flight can stop. -/
theorem resetFromAnyState : Obligations.ResetFromAnyState := by
  intro s rest hin
  rw [step_of_reset hin]
  refine ⟨fun hdev => ?_, fun t ht => (hostReset_registers ht).1⟩
  obtain ⟨t, ht⟩ := exists_hostReset (s := { s with inbox := rest }) hdev
  obtain ⟨⟨hidle, hdone, hcause, hfaddr, hidx⟩, hmap, hinbox⟩ := hostReset_registers ht
  exact ⟨t, ht, hidle, hdone, hcause, hfaddr, hidx, hmap, hinbox, fun hst =>
    hostReset_mem_of_not_busy (s := { s with inbox := rest }) hst ht⟩

/-! ### Reset while a command is in execution (R221, R64) -/

/-- The bytes a reset leaves unspecified: as after `IDX` samples, and with a sample in progress also as after it. -/
theorem mem_touchedAtReset {i : Instr} {s : State} (hx : inExecution i s) (inProgress : Bool) (a : Addr) :
    a ∈ touchedAtReset s inProgress ↔ a ∈ unspecifiedBytes i s.hostWrote s.idx.toNat ∨
      (inProgress = true ∧ a ∈ unspecifiedBytes i s.hostWrote (s.idx.toNat + 1)) := by
  cases inProgress <;> simp [touchedAtReset, currentInstr_of_inExecution hx]

/-- A byte of memory with some of a sample's cells stored is old, or is a byte of the sample and is as with all of them
stored. -/
theorem readByte_writeCells_chosenCells {m : Memory} (hm : Memory.wf m) {cells : List (Addr × Byte)}
    (hnodup : (cells.map Prod.fst).Nodup) (choice : BitVec 8) (k : Nat) (a : Addr) :
    readByte (writeCells m (chosenCells choice k cells)) a = readByte m a ∨
      (a ∈ cells.map Prod.fst ∧
        readByte (writeCells m (chosenCells choice k cells)) a = readByte (writeCells m cells) a) := by
  by_cases ha : a ∈ (chosenCells choice k cells).map Prod.fst
  · obtain ⟨c, hc, rfl⟩ := List.mem_map.1 ha
    have hc' := mem_of_mem_chosenCells hc
    refine .inr ⟨List.mem_map_of_mem hc', ?_⟩
    rw [readByte_writeCells_mem hm (chosenCells_nodup hnodup) hc, readByte_writeCells_mem hm hnodup hc']
  · exact .inl (readByte_writeCells_ne m _ ha)

theorem instrElement_addrs {i : Instr} {s : State} {cells : List (Addr × Byte)} (h : instrElement i s = .ok cells) :
    cells.map Prod.fst = destBytes i s.idx := by
  rcases instrElement_cases i s with ⟨_, h', haddrs, -⟩ | ⟨_, h', -⟩ | ⟨_, h', -⟩
  · cases h.symm.trans h'; exact haddrs
  · cases h.symm.trans h'
  · cases h.symm.trans h'

/-- Everything a reset of a command in execution does: some cells are stored, each byte of memory then being old, or a
byte of the pending sample and as the command's step would leave it; then the unspecified bytes are freed, which with
no sample pending are those before it. -/
theorem hostReset_of_inExecution {i : Instr} {s t : State} (hwf : Memory.wf s.mem) (hx : inExecution i s)
    (h : hostReset s = .next t) :
    ∃ cells inProgress,
      t = resetCore (settleBytes (touchedAtReset s inProgress) { s with mem := writeCells s.mem cells }) ∧
        (inProgress = true → samplePending i s) ∧
        ∀ a : Addr, readByte (writeCells s.mem cells) a = readByte s.mem a ∨
          (samplePending i s ∧ a ∈ destBytes i s.idx ∧
            ∃ u, exec i s = .next u ∧ readByte (writeCells s.mem cells) a = readByte u.mem a) := by
  obtain ⟨_, cells, rfl, ⟨rfl, rfl⟩ | ⟨j, new, -, hd, hlt, hw, rfl, rfl⟩⟩ := hostReset_next_cases h
  · exact ⟨[], false, rfl, by simp, fun a => .inl rfl⟩
  · obtain rfl : j = i := by simpa using congrArg descriptorInstr (hd.symm.trans hx.2)
    have hp : samplePending j s := ⟨hx, hlt⟩
    have haddrs := instrElement_addrs hw
    refine ⟨_, _, rfl, fun _ => hp, fun a => ?_⟩
    refine (readByte_writeCells_chosenCells hwf (haddrs ▸ destBytes_nodup j s.idx) _ 0 a).imp_right ?_
    rintro ⟨ha, hread⟩
    exact ⟨hp, haddrs ▸ ha, _, exec_of_elementOk hp hw, hread⟩

/-- The command's step does not look at the host's moves, nor does its memory afterwards. -/
theorem exec_mem_of_inbox {i : Instr} {s u : State} {l : List HostMove} (h : exec i { s with inbox := l } = .next u) :
    ∃ u', exec i s = .next u' ∧ u'.mem = u.mem :=
  ⟨_, exec_withHost h s.inbox s.bus s.fresh, rfl⟩

/-- Settles O44: a byte that the reset does not free is old or new by the free choice; a freed byte of ordinary memory
is a free value. -/
theorem resetLeavesOldOrNewBytes : Obligations.ResetLeavesOldOrNewBytes := by
  intro s t i rest hwf hx hin ht
  rw [step_of_reset hin] at ht
  obtain ⟨cells, inProgress, rfl, hpending, hstored⟩ :=
    hostReset_of_inExecution (s := { s with inbox := rest }) hwf hx ht
  have htouched := mem_touchedAtReset (s := { s with inbox := rest }) hx inProgress
  refine ⟨fun a => ?_, fun a ha hacc => ?_⟩
  · by_cases hfreed : a ∈ touchedAtReset { s with inbox := rest } inProgress
    · exact .inr (.inr (((htouched a).1 hfreed).imp_right fun ⟨hprogress, ha⟩ => ⟨hpending hprogress, ha⟩))
    · rw [resetCore_mem, readByte_settleBytes hfreed]
      refine (hstored a).imp_right fun ⟨hp, ha, u, hu, hread⟩ => .inl ⟨hp, ha, ?_⟩
      obtain ⟨u', hu', hmem⟩ := exec_mem_of_inbox hu
      exact ⟨u', hu', hread.trans (by rw [hmem])⟩
  · obtain ⟨index, hfree⟩ := readByte_settleBytes_mem
      (s := { s with inbox := rest, mem := writeCells s.mem cells }) (writeCells_wf hwf cells)
      (touchedAtReset { s with inbox := rest } inProgress)
    obtain ⟨hlow, hhigh, hval, -⟩ := hfree a ((htouched a).2 (.inl ha)) hacc
    exact ⟨index a, hlow, Nat.lt_succ_of_lt hhigh, hval⟩

end Sys2Proof.Proofs
